-- ==== Sys2Proof/Word.lean ====
section
/-! DEFINITION. The engine's plain data types: bits, bytes, numeric words (spec/00_scope.md R8, R10, R11). -/
namespace Sys2Proof

/-- A byte is 8 bits (R11). -/
abbrev Byte := BitVec 8

/-- A numeric word: a command word, a length word or register, STATUS. Bit 0 is the least significant bit (R10). -/
abbrev Word := BitVec 16

/-- A bit sequence: finite, with an explicit length; index 0 is the first and most significant bit (R8). -/
abbrev BitSeq := List Bool

/-- A byte sequence, first byte first (R10). Its element `i` is the byte at address `i` of the space it stands for
(R28). -/
abbrev ByteSeq := List Byte

/-- One round-key register: 48 bits (R20), held as the number `val` gives the bit sequence (R8). -/
abbrev RoundKey := BitVec 48

end Sys2Proof
end

