-- ==== Sys2Proof/Machine/Bits.lean ====
section
/-! DEFINITION. The BitVector utilities, the engine's first component (R2): numbers and bit sequences (R8), the
pseudocode's operations on sequences (spec/00_scope.md R11), bytes and bits (spec/20_memory.md R30, R31). -/
namespace Sys2Proof.Machine

/-- `val(S) = Σ S[i] · 2^(len(S)−1−i)` (R8). -/
def val (S : BitSeq) : Nat := S.foldl (fun acc b => 2 * acc + b.toNat) 0

/-- `bits_N(v)`: the sequence of length `N` whose number is `v`, for `v < 2^N` (R8). -/
def bitsN : Nat → Nat → BitSeq
  | 0, _ => []
  | N + 1, v => v.testBit N :: bitsN N v

/-- `zeros(n)` as a bit sequence (R11). -/
def zeros (n : Nat) : BitSeq := List.replicate n false

/-- `S[i]`. R11 says no rule evaluates it past the end, so the value given there is never used (log entry 13). -/
def bitAt (S : BitSeq) (i : Nat) : Bool := S.getD i false

/-- `S[i..j)`, of length `j − i` (R11). -/
def slice (S : BitSeq) (i j : Nat) : BitSeq := (S.drop i).take (j - i)

/-- `S xor T`, bit by bit, for sequences of one length (R11, R141). -/
def xorBits (S T : BitSeq) : BitSeq := List.zipWith (fun x y => x ^^ y) S T

/-- `rotl(S, n)[i] = S[(i + n) mod len(S)]` (R11). -/
def rotl (S : BitSeq) (n : Nat) : BitSeq := S.drop (n % S.length) ++ S.take (n % S.length)

/-- The eight bits of one byte, the bit of weight 128 first (R30). -/
def bitsOfByte (b : Byte) : BitSeq := bitsN 8 b.toNat

/-- `bits_of_bytes(B)`: byte `k` at indices `8k` to `8k+7` (R30). -/
def bitsOfBytes (B : ByteSeq) : BitSeq := B.flatMap bitsOfByte

/-- `bytes_of_bits(S)`: byte `k` is `val(S[8k .. 8k+8))` (R31). It is used on multiples of 8 bits only. -/
def bytesOfBits : BitSeq → ByteSeq
  | b0 :: b1 :: b2 :: b3 :: b4 :: b5 :: b6 :: b7 :: rest =>
    BitVec.ofNat 8 (val [b0, b1, b2, b3, b4, b5, b6, b7]) :: bytesOfBits rest
  | _ => []

/-- `ceil(n / 8)` (R11): how many bytes hold `n` bits, how many Blocks hold `n` bytes. -/
def ceilDiv8 (n : Nat) : Nat := (n + 7) / 8

/-- The 48 bits a round-key register holds, first bit most significant (R8, R20). -/
def bitsOfRoundKey (k : RoundKey) : BitSeq := bitsN 48 k.toNat

/-- The register value that holds 48 given bits (R8, R20). -/
def roundKeyOfBits (S : BitSeq) : RoundKey := BitVec.ofNat 48 (val S)

end Sys2Proof.Machine
end

