-- ==== Sys2Proof/Machine/Errors.lean ====
section
/-! DEFINITION. The engine's errors and their codes (spec/60_exceptions.md R114). -/
namespace Sys2Proof.Machine

/-- The seven errors. They are results recorded in STATUS, not stops of the machine (R113, R125). -/
inductive EngineError where
  /-- A block or half-block of the wrong length (R115). -/
  | invalidBlockLength
  /-- A key that is not 64 bits (R116). -/
  | invalidKeyLength
  /-- An IV that is not 64 bits (R117). -/
  | invalidIVLength
  /-- A message below 8 bytes (R118). -/
  | messageTooShort
  /-- A table entry outside the input's bounds (R119). -/
  | invalidLength
  /-- An illegal encoding (R120). -/
  | illegalCommand
  /-- FRND without valid round keys (R121). -/
  | roundKeysNotReady
  deriving DecidableEq, Repr

/-- `code(<Error>)`, the 4 bits written to ECODE (R114). Codes 8 to 15 are never produced. -/
def EngineError.code : EngineError → BitVec 4
  | .invalidBlockLength => 1
  | .invalidKeyLength => 2
  | .invalidIVLength => 3
  | .messageTooShort => 4
  | .invalidLength => 5
  | .illegalCommand => 6
  | .roundKeysNotReady => 7

end Sys2Proof.Machine
end

