-- ==== Sys2Proof/Machine/Permutation.lean ====
section
/-! DEFINITION. The permutation engine (spec/41_permutation_engine.md R57 to R59): one operation for every table. -/
namespace Sys2Proof.Machine

/-- The bounds check of R57, made for every entry before any output: `1 ≤ T[i] ≤ len(S)`. -/
def inBounds (S : BitSeq) (T : PermTable) : Bool := T.all fun p => decide (1 ≤ p ∧ p ≤ S.length)

/-- The output of R57: `O[i] = S[T[i] − 1]`, of length `len(T)`. -/
def select (S : BitSeq) (T : PermTable) : BitSeq := T.map fun p => bitAt S (p - 1)

/-- `permute(input, table)` (R57): the bounds check is the only check (R58). Inside the cipher the arguments have the
tables' nominal lengths, the check never fails (R58, R122) and `select` is the result. -/
def permute (S : BitSeq) (T : PermTable) : Except EngineError BitSeq :=
  if inBounds S T then .ok (select S T) else .error .invalidLength

end Sys2Proof.Machine
end

