-- ==== Sys2Proof/Machine/Feistel.lean ====
section
/-! DEFINITION. The Feistel round function, or mangler (spec/43_feistel_round.md R81 to R95). -/
namespace Sys2Proof.Machine

/-- `row_i = 2·g[0] + g[5]` (R84). -/
def sboxRow (g : BitSeq) : Nat := 2 * (bitAt g 0).toNat + (bitAt g 5).toNat

/-- `col_i = 8·g[1] + 4·g[2] + 2·g[3] + g[4]` (R84). -/
def sboxCol (g : BitSeq) : Nat :=
  8 * (bitAt g 1).toNat + 4 * (bitAt g 2).toNat + 2 * (bitAt g 3).toNat + (bitAt g 4).toNat

/-- Nibble `i` of the substitution layer: group `g = Y[6i .. 6i+6)` looked up in `SBox[i]` (R84, R93). -/
def sboxNibble (Y : BitSeq) (i : Nat) : BitSeq :=
  let g := slice Y (6 * i) (6 * i + 6)
  bitsN 4 (SBox i (sboxRow g) (sboxCol g))

/-- `sbox_layer(Y)`: the eight nibbles in order (R93). -/
def sboxLayer (Y : BitSeq) : BitSeq := (List.range 8).flatMap (sboxNibble Y)

/-- `mangler(R, K)`: expansion, key mixing, substitution, output permutation (R82, R83, R93, R94, R95). -/
def mangler (R K : BitSeq) : BitSeq :=
  let X := select R tableE
  let Y := xorBits X K
  let Z := sboxLayer Y
  select Z tableP

end Sys2Proof.Machine
end

