-- ==== Sys2Proof/Machine/KeySchedule.lean ====
section
/-! DEFINITION. The key schedule (spec/42_key_schedule.md R73 to R78). -/
namespace Sys2Proof.Machine

/-- Steps 3 and 4 for the rounds whose rotation amounts are listed: rotate each half on its own, cumulatively, then
compress the concatenation (R76). -/
def keyRounds : List Nat → BitSeq → BitSeq → List BitSeq
  | [], _, _ => []
  | n :: rest, C, D => select (rotl C n ++ rotl D n) tablePC2 :: keyRounds rest (rotl C n) (rotl D n)

/-- `KS[1..16]` for a 64-bit key, first round first: from C0 and D0 of that key alone (R74 to R78). -/
def roundKeys (key : BitSeq) : List BitSeq :=
  let CD := select key tablePC1
  keyRounds SHIFTS (slice CD 0 28) (slice CD 28 56)

/-- `KS(key)` (R77): a key of another length fails with InvalidKeyLength (R73). -/
def KS (key : BitSeq) : Except EngineError (List BitSeq) :=
  if key.length ≠ 64 then .error .invalidKeyLength else .ok (roundKeys key)

/-- `KS(key)[r]`, `r` from 1 to 16 (R73). -/
def roundKey (key : BitSeq) (r : Nat) : BitSeq := (roundKeys key).getD (r - 1) []

end Sys2Proof.Machine
end

