-- ==== Sys2Proof/Machine/Cipher.lean ====
section
/-! DEFINITION. The DES single-block cipher (spec/44_block_cipher.md R98 to R102). -/
namespace Sys2Proof.Machine

/-- One round: `L_r = R_{r−1}`, `R_r = mangler(R_{r−1}, K_r) xor L_{r−1}`, simultaneously (R100). -/
def feistelRound (LR : BitSeq × BitSeq) (K : BitSeq) : BitSeq × BitSeq :=
  (LR.2, xorBits (mangler LR.2 K) LR.1)

/-- The rounds under a list of round keys, first key first (R100). -/
def feistel (ks : List BitSeq) (LR : BitSeq × BitSeq) : BitSeq × BitSeq := ks.foldl feistelRound LR

/-- A 64-bit block under round keys: IP, split, the rounds, `R16 ++ L16`, FP (R99 to R101). -/
def desBlock (ks : List BitSeq) (plaintext : BitSeq) : BitSeq :=
  let B := select plaintext tableIP
  let LR := feistel ks (slice B 0 32, slice B 32 64)
  select (LR.2 ++ LR.1) tableFP

/-- `encryptBlock(plaintext, key)` (R102): both lengths are tested before anything is computed, the plaintext first
(R98). -/
def encryptBlock (plaintext key : BitSeq) : Except EngineError BitSeq :=
  if plaintext.length ≠ 64 then .error .invalidBlockLength
  else if key.length ≠ 64 then .error .invalidKeyLength
  else .ok (desBlock (roundKeys key) plaintext)

end Sys2Proof.Machine
end

