-- ==== Sys2Proof/Syntax.lean ====
section
/-! DEFINITION. The seventeen commands (spec/30_encoding.md R44), one constructor a row of the opcode table. -/
namespace Sys2Proof

/-- A command of the engine. Operands are raw data; which of them an encoding admits is said by `Instr.WellFormed`. -/
inductive Instr where
  /-- NOP (R55). -/
  | nop
  /-- CLR (R56). -/
  | clr
  /-- LDA, with the bit sequence to load (R51). -/
  | lda (S : BitSeq)
  /-- LDK, with the bit sequence to load (R52). -/
  | ldk (S : BitSeq)
  /-- LDV, with the bit sequence to load (R53). -/
  | ldv (S : BitSeq)
  /-- LDM, with the bytes to load (R54). -/
  | ldm (P : ByteSeq)
  /-- PERM.IP (R67). -/
  | permIp
  /-- PERM.FP (R68). -/
  | permFp
  /-- PERM.PC1 (R69). -/
  | permPc1
  /-- PERM.PC2 (R70). -/
  | permPc2
  /-- PERM.E (R71). -/
  | permE
  /-- PERM.P (R72). -/
  | permP
  /-- KSCHED (R80). -/
  | ksched
  /-- FRND r, with the round number (R96). -/
  | frnd (r : Nat)
  /-- ENCBLK (R104). -/
  | encblk
  /-- ENCECB (R111). -/
  | encecb
  /-- ENCCBC (R112). -/
  | enccbc
  deriving DecidableEq, Repr

end Sys2Proof
end

