-- ==== Sys2Proof/Machine/State.lean ====
section
/-! DEFINITION. The state of the engine (spec/10_state.md R13) and the host's side of its interface
(spec/70_reset_and_hazards.md R143), the reasons a step could stop, and the state after reset (R27). -/
namespace Sys2Proof.Machine

/-- What a read of a register number gives: a numeric word, a bit sequence or a byte sequence (R22). -/
inductive RegValue where
  | word (w : Word)
  | bits (S : BitSeq)
  | bytes (B : ByteSeq)
  deriving DecidableEq, Repr

/-- The three things the host can do to the engine (R143). -/
inductive HostMove where
  /-- Present bytes of a command stream. -/
  | present (B : ByteSeq)
  /-- Read a register number. -/
  | readRegister (number : Nat)
  /-- Cause the reset event. -/
  | reset
  deriving DecidableEq, Repr

/-- The architectural state of the engine, exactly (R13). The length registers ALEN, KLEN, VLEN, MLEN, QLEN, CLEN are
the lengths of the stores, which are part of the stores' values (R26 item 1, log entry 1). -/
structure Engine where
  /-- `A`, the data operand store (R14). -/
  a : BitSeq
  /-- `K`, the key operand store (R15). -/
  k : BitSeq
  /-- `V`, the initialization-vector store (R16). -/
  v : BitSeq
  /-- `MSG`, the message store (R17). -/
  msg : ByteSeq
  /-- `Q`, the result store (R18). -/
  q : BitSeq
  /-- `CPH`, the ciphertext store (R19). -/
  cph : ByteSeq
  /-- `RK[1..16]`, the round-key file (R20); element `r − 1` is `RK[r]`. -/
  rk : Vector RoundKey 16
  /-- `STATUS` (R21). -/
  status : Word
  deriving DecidableEq, Repr

/-- The engine and the host's side of its interface. The three fields below are the MODEL's own (log entry 5): the
command stream and the host's moves are inputs, not state of the engine (R47, R143). -/
structure State extends Engine where
  /-- Bytes presented and not yet consumed, first byte first (R46, R47). -/
  port : ByteSeq
  /-- The host's coming moves, first one first (R143). -/
  moves : List HostMove
  /-- What the latest register read gave the host (R143). -/
  readout : Option RegValue
  deriving DecidableEq, Repr

/-- Reasons to stop with a fault: none. Errors are recorded in STATUS and the next command runs (R113, R125), so
nothing raises a fault, and the type has no constructor. -/
inductive Fault where
  deriving DecidableEq, Repr

/-- Reasons to refuse an instruction. -/
inductive Refusal where
  /-- Raised by no arm of `exec`: every command of R44 has its meaning. It would be safe: the machine stops. -/
  | notModelled (mnemonic : String)
  deriving DecidableEq, Repr

/-- The engine right after reset (R27): every store empty, every round key zero, STATUS 0x0000. -/
def Engine.reset : Engine :=
  { a := [], k := [], v := [], msg := [], q := [], cph := [], rk := Vector.replicate 16 0, status := 0 }

/-- The machine right after reset. That the host has presented nothing and makes no move is a DESIGN CHOICE (log
entry 5); that no read has given it anything is so because it has made none. -/
def State.reset : State := { Engine.reset with port := [], moves := [], readout := none }

end Sys2Proof.Machine
end

