-- ==== Sys2Proof/Machine/Flags.lean ====
section
/-! DEFINITION. The fields of STATUS (spec/10_state.md R21): reading one, and writing one with every other bit kept. -/
namespace Sys2Proof.Machine

/-- `ECODE`, bits 3:0 (R21). -/
def ecodeOf (w : Word) : BitVec 4 := w.extractLsb' 0 4

/-- `ESTICKY`, bit 4 (R21). -/
def estickyOf (w : Word) : Bool := w.getLsbD 4

/-- `RKV`, bit 5 (R21). -/
def rkvOf (w : Word) : Bool := w.getLsbD 5

/-- Bits 15:6, reserved (R21). -/
def reservedOf (w : Word) : BitVec 10 := w.extractLsb' 6 10

/-- A STATUS word from its fields (R21). -/
def statusWord (reserved : BitVec 10) (rkv esticky : Bool) (ecode : BitVec 4) : Word :=
  reserved ++ BitVec.ofBool rkv ++ BitVec.ofBool esticky ++ ecode

/-- `ECODE <- c`. -/
def setEcode (w : Word) (c : BitVec 4) : Word := statusWord (reservedOf w) (rkvOf w) (estickyOf w) c

/-- `ESTICKY <- b`. -/
def setEsticky (w : Word) (b : Bool) : Word := statusWord (reservedOf w) (rkvOf w) b (ecodeOf w)

/-- `RKV <- b`. -/
def setRkv (w : Word) (b : Bool) : Word := statusWord (reservedOf w) b (estickyOf w) (ecodeOf w)

/-- `STATUS.ECODE` of the engine. -/
def Engine.ecode (e : Engine) : BitVec 4 := ecodeOf e.status

/-- `STATUS.ESTICKY` of the engine. -/
def Engine.esticky (e : Engine) : Bool := estickyOf e.status

/-- `STATUS.RKV` of the engine. -/
def Engine.rkv (e : Engine) : Bool := rkvOf e.status

end Sys2Proof.Machine
end

