-- ==== Sys2Proof/Machine/Operands.lean ====
section
/-! DEFINITION. Reading the engine's state: the length registers, the round-key file, and the register numbers the host
reads through (spec/10_state.md R14 to R22). -/
namespace Sys2Proof.Machine

/-- `ALEN`: the length of `A` as a 16-bit register (R14, R22). -/
def Engine.alen (e : Engine) : Word := BitVec.ofNat 16 e.a.length

/-- `KLEN` (R15, R22). -/
def Engine.klen (e : Engine) : Word := BitVec.ofNat 16 e.k.length

/-- `VLEN` (R16, R22). -/
def Engine.vlen (e : Engine) : Word := BitVec.ofNat 16 e.v.length

/-- `MLEN` (R17, R22). -/
def Engine.mlen (e : Engine) : Word := BitVec.ofNat 16 e.msg.length

/-- `QLEN` (R18, R22). -/
def Engine.qlen (e : Engine) : Word := BitVec.ofNat 16 e.q.length

/-- `CLEN` (R19, R22). -/
def Engine.clen (e : Engine) : Word := BitVec.ofNat 16 e.cph.length

/-- `RK[r]`, `r` from 1 to 16 (R20). No rule reads another index (log entry 13). -/
def Engine.rkAt (e : Engine) (r : Nat) : RoundKey := e.rk.toList.getD (r - 1) 0

/-- The 48 bits of `RK[r]` (R20). -/
def Engine.rkBits (e : Engine) (r : Nat) : BitSeq := bitsOfRoundKey (e.rkAt r)

/-- What the host reads at a register number (R22). Number 7 and every number R22 does not list read as 0. -/
def Engine.readRegister (e : Engine) (number : Nat) : RegValue :=
  match number with
  | 0 => .word e.status
  | 1 => .word e.alen
  | 2 => .word e.klen
  | 3 => .word e.vlen
  | 4 => .word e.mlen
  | 5 => .word e.qlen
  | 6 => .word e.clen
  | 16 => .bits e.a
  | 17 => .bits e.k
  | 18 => .bits e.v
  | 19 => .bytes e.msg
  | 20 => .bits e.q
  | 21 => .bytes e.cph
  | n => if 33 ≤ n ∧ n ≤ 48 then .bits (e.rkBits (n - 32)) else .word 0

end Sys2Proof.Machine
end

