-- ==== Sys2Proof/Machine/Ops.lean ====
section
/-! DEFINITION. The operations the commands share: ending a command well, raising an error, writing the round-key file
(spec/60_exceptions.md R113, spec/10_state.md R20, R21). All of them change the engine and leave the host's side alone. -/
namespace Sys2Proof.Machine

/-- What a step or a meaning answers. -/
abbrev Result := Host.Outcome State Fault Refusal

/-- Which result store a command empties when it raises an error (R113). -/
inductive ResultStore where
  /-- PERM.*, FRND, ENCBLK: `Q`. -/
  | q
  /-- ENCECB, ENCCBC: `CPH`. -/
  | cph
  /-- Every other command: nothing. -/
  | nothing
  deriving DecidableEq, Repr

/-- `ECODE <- 0`, the end of every command that succeeds (R21). -/
def succeed (s : State) : State := { s with status := setEcode s.status 0 }

/-- The command's result store emptied (R113). -/
def emptyResult (store : ResultStore) (s : State) : State :=
  match store with
  | .q => { s with q := [] }
  | .cph => { s with cph := [] }
  | .nothing => s

/-- `raise <Error>` (R113), the engine's only exceptional event: the code is recorded, ESTICKY is set, the command's
result store is emptied, everything else keeps its value. Nothing is entered, so there is no return (R125). -/
def raise (err : EngineError) (store : ResultStore) (s : State) : State :=
  let t := emptyResult store s
  { t with status := setEsticky (setEcode t.status err.code) true }

/-- The round-key file that holds `ks[r]` in `RK[r]`, `r` from 1 to 16 (R20). Irreducible for proofs: no unification
need look inside a key schedule to see that another field is untouched. -/
@[irreducible] def roundKeyFile (ks : List BitSeq) : Vector RoundKey 16 :=
  Vector.ofFn fun i => roundKeyOfBits (ks.getD i.val [])

/-- `RK[r] <- ks[r]` for `r` in 1..16, and `RKV <- 1` (R20). -/
def writeRoundKeys (ks : List BitSeq) (s : State) : State :=
  { s with rk := roundKeyFile ks, status := setRkv s.status true }

/-- `RK[r] <- zeros(48)` for `r` in 1..16, and `RKV <- 0` (R20). -/
def clearRoundKeys (s : State) : State :=
  { s with rk := Vector.replicate 16 0, status := setRkv s.status false }

end Sys2Proof.Machine
end

