-- ==== Sys2Proof/Machine/Blocks.lean ====
section
/-! DEFINITION. KSCHED (spec/42_key_schedule.md R80), FRND (spec/43_feistel_round.md R96) and ENCBLK
(spec/44_block_cipher.md R104). -/
namespace Sys2Proof.Machine

/-- KSCHED: the sixteen round keys of `K` (R80). -/
def execKsched (s : State) : Result :=
  if s.k.length ≠ 64 then .next (raise .invalidKeyLength .nothing s)
  else .next (succeed (writeRoundKeys (roundKeys s.k) s))

/-- FRND r: `Q <- mangler(A, RK[r])`; the length is tested before readiness (R96). A round number outside 1 to 16 has no
legal encoding: IllegalCommand, nothing else changed (R45 item 4, log entry 10). -/
def execFrnd (r : Nat) (s : State) : Result :=
  if ¬ (1 ≤ r ∧ r ≤ 16) then .next (raise .illegalCommand .nothing s)
  else if s.a.length ≠ 32 then .next (raise .invalidBlockLength .q s)
  else if s.rkv = false then .next (raise .roundKeysNotReady .q s)
  else .next (succeed { s with q := mangler s.a (s.rkBits r) })

/-- ENCBLK: `Q <- encryptBlock(A, K)` and the round keys of `K`; the block is tested before the key (R104). -/
def execEncblk (s : State) : Result :=
  if s.a.length ≠ 64 then .next (raise .invalidBlockLength .q s)
  else if s.k.length ≠ 64 then .next (raise .invalidKeyLength .q s)
  else .next (succeed (writeRoundKeys (roundKeys s.k) { s with q := desBlock (roundKeys s.k) s.a }))

end Sys2Proof.Machine
end

