-- ==== Sys2Proof/Machine/Control.lean ====
section
/-! DEFINITION. The control commands NOP and CLR (spec/40_bitvector_and_loads.md R55, R56). -/
namespace Sys2Proof.Machine

/-- NOP: `ECODE <- 0` (R55). -/
def execNop (s : State) : Result := .next (succeed s)

/-- CLR: the engine's post-state is exactly the reset state (R56). The host's side is no state of the engine. -/
def execClr (s : State) : Result := .next { s with toEngine := Engine.reset }

end Sys2Proof.Machine
end

