-- ==== Sys2Proof/Config.lean ====
section
/-! DEFINITION. The engine's parameters (spec/00_scope.md R7): the fixed and decided ones as numbers, the two OPEN
ones as constants without a body, so that nothing can be proved of the value one implementation gives them. -/
namespace Sys2Proof.Config

/-- OPCAP: capacity in bits of each of the stores A, K, V (R7, decision D4). -/
def OPCAP : Nat := 128

/-- By how many bytes this implementation's message store falls short of the largest capacity R7 allows. No body: every
capacity of R7 is one value of it (log entry 3). -/
opaque msgShortfall : Fin 65513

/-- MSGCAP: capacity in bytes of the message store, OPEN with `16 ≤ MSGCAP ≤ 65528` (R7). The sum is written with the
16 last so that a message of up to 16 bytes is seen to fit by evaluation. -/
def MSGCAP : Nat := (65512 - msgShortfall.val) + 16

/-- CPHCAP: capacity in bytes of the ciphertext store, `8 · ceil(MSGCAP / 8)` (R7). -/
def CPHCAP : Nat := 8 * ((MSGCAP + 7) / 8)

/-- REGBASE: where the platform places the register numbers of R22, OPEN (R7). No body (log entry 4). -/
opaque REGBASE : Nat

/-- DESIGN CHOICE (log entry 4), safe: the platform places register number `n` at `REGBASE + n`. No step reads this. -/
def registerAddress (n : Nat) : Nat := REGBASE + n

end Sys2Proof.Config
end

