-- ==== Sys2Proof/Machine/Loads.lean ====
section
/-! DEFINITION. The load commands LDA, LDK, LDV, LDM (spec/40_bitvector_and_loads.md R51 to R54). An operand above the
store's capacity has no legal encoding: IllegalCommand, nothing else changed (R45 items 5 and 6, log entry 10). -/
namespace Sys2Proof.Machine

/-- LDA: `A <- S; ALEN <- n; ECODE <- 0` (R51). -/
def execLda (S : BitSeq) (s : State) : Result :=
  if Config.OPCAP < S.length then .next (raise .illegalCommand .nothing s)
  else .next (succeed { s with a := S })

/-- LDK: `K <- S; KLEN <- n`, the round keys zeroed and invalidated, `ECODE <- 0` (R52). -/
def execLdk (S : BitSeq) (s : State) : Result :=
  if Config.OPCAP < S.length then .next (raise .illegalCommand .nothing s)
  else .next (succeed (clearRoundKeys { s with k := S }))

/-- LDV: `V <- S; VLEN <- n; ECODE <- 0` (R53). -/
def execLdv (S : BitSeq) (s : State) : Result :=
  if Config.OPCAP < S.length then .next (raise .illegalCommand .nothing s)
  else .next (succeed { s with v := S })

/-- LDM: `MSG <- P; MLEN <- n; ECODE <- 0` (R54). -/
def execLdm (P : ByteSeq) (s : State) : Result :=
  if P.length ≤ Config.MSGCAP then .next (succeed { s with msg := P })
  else .next (raise .illegalCommand .nothing s)

end Sys2Proof.Machine
end

