-- ==== Sys2Proof/Machine/Modes.lean ====
section
/-! DEFINITION. The block modes as functions (spec/45_block_modes.md R105 to R109), and the access to the byte stores
they use (spec/20_memory.md R33, R34). -/
namespace Sys2Proof.Machine

/-- `MemRead(addr, n)`: `n` bytes from `addr`, 0x00 at and beyond the length (R33). -/
def memRead (msg : ByteSeq) (addr n : Nat) : ByteSeq := (List.range n).map fun i => msg.getD (addr + i) 0

/-- `MemWrite(addr, n, v)`: the bytes `v` from `addr` on, every other byte kept; bytes between the old end and `addr`,
which no command leaves out, are 0x00 (R34). -/
def memWrite (cph : ByteSeq) (addr : Nat) (v : ByteSeq) : ByteSeq :=
  cph.take addr ++ List.replicate (addr - cph.length) 0 ++ v ++ cph.drop (addr + v.length)

/-- `nblocks = ceil(MLEN / 8)` (R33, R106). -/
def nblocks (msg : ByteSeq) : Nat := ceilDiv8 msg.length

/-- The block numbers `1, 2, ..., nblocks`, in order (R24). -/
def blockNumbers (msg : ByteSeq) : List Nat := (List.range (nblocks msg)).map (· + 1)

/-- `M_i = bits_of_bytes(MemRead(8·(i − 1), 8))` (R33). -/
def messageBlock (msg : ByteSeq) (i : Nat) : BitSeq := bitsOfBytes (memRead msg (8 * (i - 1)) 8)

/-- `ecb(message, key)` (R107). -/
def ecb (msg : ByteSeq) (key : BitSeq) : Except EngineError ByteSeq :=
  if msg.length < 8 then .error .messageTooShort
  else if key.length ≠ 64 then .error .invalidKeyLength
  else .ok ((blockNumbers msg).flatMap fun i => bytesOfBits (desBlock (roundKeys key) (messageBlock msg i)))

/-- The chained blocks `C_i = DES(M_i xor CHAIN)`, `CHAIN` the block before (R109). -/
def cbcBlocks (ks : List BitSeq) (CHAIN : BitSeq) : List BitSeq → List BitSeq
  | [] => []
  | M :: rest =>
    let C := desBlock ks (xorBits M CHAIN)
    C :: cbcBlocks ks C rest

/-- `cbc(message, key, iv)` (R109). -/
def cbc (msg : ByteSeq) (key iv : BitSeq) : Except EngineError ByteSeq :=
  if msg.length < 8 then .error .messageTooShort
  else if key.length ≠ 64 then .error .invalidKeyLength
  else if iv.length ≠ 64 then .error .invalidIVLength
  else .ok ((cbcBlocks (roundKeys key) iv ((blockNumbers msg).map (messageBlock msg))).flatMap bytesOfBits)

/-- The loop of ENCECB over block numbers (R111). -/
def ecbWrites (ks : List BitSeq) (msg cph : ByteSeq) (idx : List Nat) : ByteSeq :=
  idx.foldl (fun cph i => memWrite cph (8 * (i - 1)) (bytesOfBits (desBlock ks (messageBlock msg i)))) cph

/-- The loop of ENCCBC over block numbers, with its working register CHAIN (R112). -/
def cbcWrites (ks : List BitSeq) (msg : ByteSeq) : BitSeq → ByteSeq → List Nat → ByteSeq
  | _, cph, [] => cph
  | CHAIN, cph, i :: rest =>
    let C := desBlock ks (xorBits (messageBlock msg i) CHAIN)
    cbcWrites ks msg C (memWrite cph (8 * (i - 1)) (bytesOfBits C)) rest

end Sys2Proof.Machine
end

