-- ==== Sys2Proof/Machine/Messages.lean ====
section
/-! DEFINITION. ENCECB and ENCCBC (spec/45_block_modes.md R111, R112): the message in `MSG` to the ciphertext in `CPH`. -/
namespace Sys2Proof.Machine

/-- ENCECB (R111): message then key tested, every Block written in order, `CLEN <- 8 · nblocks`, the round keys kept. -/
def execEncecb (s : State) : Result :=
  if s.msg.length < 8 then .next (raise .messageTooShort .cph s)
  else if s.k.length ≠ 64 then .next (raise .invalidKeyLength .cph s)
  else
    let ks := roundKeys s.k
    let out := ecbWrites ks s.msg s.cph (blockNumbers s.msg)
    .next (succeed (writeRoundKeys ks { s with cph := out.take (8 * nblocks s.msg) }))

/-- ENCCBC (R112): message, key, then IV tested, the chain started from `V`, which is not changed. -/
def execEnccbc (s : State) : Result :=
  if s.msg.length < 8 then .next (raise .messageTooShort .cph s)
  else if s.k.length ≠ 64 then .next (raise .invalidKeyLength .cph s)
  else if s.v.length ≠ 64 then .next (raise .invalidIVLength .cph s)
  else
    let ks := roundKeys s.k
    let out := cbcWrites ks s.msg s.v s.cph (blockNumbers s.msg)
    .next (succeed (writeRoundKeys ks { s with cph := out.take (8 * nblocks s.msg) }))

end Sys2Proof.Machine
end

