-- ==== Sys2Proof/Machine/Permutes.lean ====
section
/-! DEFINITION. The six PERM commands (spec/41_permutation_engine.md R67 to R72): operand `A`, result `Q`. -/
namespace Sys2Proof.Machine

/-- The template of R67 to R72: `Q <- permute(A, T)`, or InvalidLength with `Q` emptied. -/
def permCommand (T : PermTable) (s : State) : Result :=
  match permute s.a T with
  | .ok out => .next (succeed { s with q := out })
  | .error err => .next (raise err .q s)

/-- PERM.IP (R67). -/
def execPermIp (s : State) : Result := permCommand tableIP s

/-- PERM.FP (R68). -/
def execPermFp (s : State) : Result := permCommand tableFP s

/-- PERM.PC1 (R69). -/
def execPermPc1 (s : State) : Result := permCommand tablePC1 s

/-- PERM.PC2 (R70). -/
def execPermPc2 (s : State) : Result := permCommand tablePC2 s

/-- PERM.E (R71). -/
def execPermE (s : State) : Result := permCommand tableE s

/-- PERM.P (R72). -/
def execPermP (s : State) : Result := permCommand tableP s

end Sys2Proof.Machine
end

