-- ==== Sys2Proof/Machine/Dispatch.lean ====
section
/-! DEFINITION. One arm a command (spec/30_encoding.md R44): its meaning. -/
namespace Sys2Proof.Machine

def exec (i : Instr) (s : State) : Host.Outcome State Fault Refusal :=
  match i with
  | .nop => Sys2Proof.Machine.execNop s
  | .clr => Sys2Proof.Machine.execClr s
  | .lda S => Sys2Proof.Machine.execLda S s
  | .ldk S => Sys2Proof.Machine.execLdk S s
  | .ldv S => Sys2Proof.Machine.execLdv S s
  | .ldm P => Sys2Proof.Machine.execLdm P s
  | .permIp => Sys2Proof.Machine.execPermIp s
  | .permFp => Sys2Proof.Machine.execPermFp s
  | .permPc1 => Sys2Proof.Machine.execPermPc1 s
  | .permPc2 => Sys2Proof.Machine.execPermPc2 s
  | .permE => Sys2Proof.Machine.execPermE s
  | .permP => Sys2Proof.Machine.execPermP s
  | .ksched => Sys2Proof.Machine.execKsched s
  | .frnd r => Sys2Proof.Machine.execFrnd r s
  | .encblk => Sys2Proof.Machine.execEncblk s
  | .encecb => Sys2Proof.Machine.execEncecb s
  | .enccbc => Sys2Proof.Machine.execEnccbc s

end Sys2Proof.Machine
end

