-- ==== Sys2Proof/WellFormed.lean ====
section
/-! DEFINITION. Which commands have an encoding (spec/30_encoding.md R44, R45). -/
namespace Sys2Proof

/-- A command is well formed when R45 does not make it illegal: a bit load holds at most OPCAP bits (item 5), a byte load
at most MSGCAP bytes (item 6), and a round number is 1 to 16 (item 4). -/
def Instr.wellFormed : Instr → Bool
  | .lda S => decide (S.length ≤ Config.OPCAP)
  | .ldk S => decide (S.length ≤ Config.OPCAP)
  | .ldv S => decide (S.length ≤ Config.OPCAP)
  | .ldm P => decide (P.length ≤ Config.MSGCAP)
  | .frnd r => decide (1 ≤ r ∧ r ≤ 16)
  | .nop => true
  | .clr => true
  | .permIp => true
  | .permFp => true
  | .permPc1 => true
  | .permPc2 => true
  | .permE => true
  | .permP => true
  | .ksched => true
  | .encblk => true
  | .encecb => true
  | .enccbc => true

/-- The same as a proposition. -/
abbrev Instr.WellFormed (i : Instr) : Prop := i.wellFormed = true

end Sys2Proof
end

