-- ==== Sys2Proof/Decode.lean ====
section
/-! DEFINITION. The command encoding (spec/30_encoding.md): the opcode table (R44), the decoder (R46), total on any
bytes and naming what is illegal (R45), the encoder, and the table's numbering of a command's bits. -/
namespace Sys2Proof

open Sys2Proof.Machine

/-- Why an encoding is illegal: the six conditions of R45, the fifth in its two parts. -/
inductive Illegal where
  /-- Item 1: `op` is not assigned. -/
  | unassignedOp
  /-- Item 2: `arg` is not 0 where it must be. -/
  | argNotZero
  /-- Item 3: no such table id. -/
  | noSuchTable
  /-- Item 4: no such round. -/
  | noSuchRound
  /-- Item 5: a bit load of more than OPCAP bits. -/
  | tooManyBits
  /-- Item 5: a pad bit that is 1. -/
  | padBitSet
  /-- Item 6: a byte load of more than MSGCAP bytes. -/
  | messageTooLong
  deriving DecidableEq, Repr

/-- What the decoder answers, with how many bytes it used (R46). -/
inductive Decoded where
  | command (i : Instr) (used : Nat)
  | illegal (why : Illegal) (used : Nat)
  | incomplete
  deriving DecidableEq, Repr

/-- Operation codes of the four loads, the formats L and LB (R42, R44). -/
def isLoadOp (op : Byte) : Bool := op == 0x10 || op == 0x11 || op == 0x12 || op == 0x13

/-- How many payload bytes a load has: its length word counts bits for LDA, LDK, LDV and bytes for LDM (R42). -/
def payloadLength (op : Byte) (n : Nat) : Nat := if op = 0x13 then n else ceilDiv8 n

/-- A load whose whole payload `P` of a length word `n` is present (R43, R45, R46). -/
def decodePayload (op arg : Byte) (n : Nat) (P : ByteSeq) (used : Nat) : Decoded :=
  if arg ≠ 0 then .illegal .argNotZero used
  else if op = 0x13 then
    if n ≤ Config.MSGCAP then .command (.ldm P) used else .illegal .messageTooLong used
  else if Config.OPCAP < n then .illegal .tooManyBits used
  else if ((bitsOfBytes P).drop n).any id then .illegal .padBitSet used
  else if op = 0x10 then .command (.lda ((bitsOfBytes P).take n)) used
  else if op = 0x11 then .command (.ldk ((bitsOfBytes P).take n)) used
  else .command (.ldv ((bitsOfBytes P).take n)) used

/-- A load, formats L and LB: length word, then payload (R42, R46). -/
def decodeLoad (op arg : Byte) : ByteSeq → Decoded
  | n1 :: n0 :: rest =>
    let n := 256 * n1.toNat + n0.toNat
    let plen := payloadLength op n
    if rest.length < plen then .incomplete else decodePayload op arg n (rest.take plen) (4 + plen)
  | _ => .incomplete

/-- PERM by table id (R44, R60). -/
def decodePerm (arg : Byte) : Decoded :=
  match arg.toNat with
  | 0 => .command .permIp 2
  | 1 => .command .permFp 2
  | 2 => .command .permPc1 2
  | 3 => .command .permPc2 2
  | 4 => .command .permE 2
  | 5 => .command .permP 2
  | _ => .illegal .noSuchTable 2

/-- A format C command whose `arg` must be 0 (R45 item 2). -/
def decodePlain (i : Instr) (arg : Byte) : Decoded :=
  if arg = 0 then .command i 2 else .illegal .argNotZero 2

/-- A format C command, two bytes; every unassigned `op` has this format (R42, R46). -/
def decodeControl (op arg : Byte) : Decoded :=
  match op.toNat with
  | 0x00 => decodePlain .nop arg
  | 0x01 => decodePlain .clr arg
  | 0x20 => decodePerm arg
  | 0x30 => decodePlain .ksched arg
  | 0x40 => if 1 ≤ arg.toNat ∧ arg.toNat ≤ 16 then .command (.frnd arg.toNat) 2 else .illegal .noSuchRound 2
  | 0x50 => decodePlain .encblk arg
  | 0x60 => decodePlain .encecb arg
  | 0x61 => decodePlain .enccbc arg
  | _ => .illegal .unassignedOp 2

/-- `decode(B)` (R46): the first command of a byte string. -/
def decode : ByteSeq → Decoded
  | op :: arg :: rest => if isLoadOp op then decodeLoad op arg rest else decodeControl op arg
  | _ => .incomplete

/-- One row of the opcode table: a command word `cw` selects it when `cw & mask = pattern` (R44). -/
structure OpcodeRow where
  mnemonic : String
  pattern : Word
  mask : Word
  deriving DecidableEq, Repr

/-- Does a command word select the row? (R44) -/
def OpcodeRow.selects (row : OpcodeRow) (cw : Word) : Bool := cw &&& row.mask == row.pattern

/-- The opcode map of R44, row by row. FRND's mask admits `arg` 0 to 31, of which 1 to 16 are the command. -/
def opcodeTable : List OpcodeRow :=
  [⟨"NOP", 0x0000, 0xFFFF⟩, ⟨"CLR", 0x0100, 0xFFFF⟩, ⟨"LDA", 0x1000, 0xFFFF⟩, ⟨"LDK", 0x1100, 0xFFFF⟩,
    ⟨"LDV", 0x1200, 0xFFFF⟩, ⟨"LDM", 0x1300, 0xFFFF⟩] ++
  [⟨"PERM.IP", 0x2000, 0xFFFF⟩, ⟨"PERM.FP", 0x2001, 0xFFFF⟩, ⟨"PERM.PC1", 0x2002, 0xFFFF⟩,
    ⟨"PERM.PC2", 0x2003, 0xFFFF⟩, ⟨"PERM.E", 0x2004, 0xFFFF⟩, ⟨"PERM.P", 0x2005, 0xFFFF⟩] ++
  [⟨"KSCHED", 0x3000, 0xFFFF⟩, ⟨"FRND", 0x4000, 0xFFE0⟩, ⟨"ENCBLK", 0x5000, 0xFFFF⟩, ⟨"ENCECB", 0x6000, 0xFFFF⟩,
    ⟨"ENCCBC", 0x6100, 0xFFFF⟩]

/-- The mnemonic a command has in R44. -/
def Instr.mnemonic : Instr → String
  | .nop => "NOP"
  | .clr => "CLR"
  | .lda _ => "LDA"
  | .ldk _ => "LDK"
  | .ldv _ => "LDV"
  | .ldm _ => "LDM"
  | .permIp => "PERM.IP"
  | .permFp => "PERM.FP"
  | .permPc1 => "PERM.PC1"
  | .permPc2 => "PERM.PC2"
  | .permE => "PERM.E"
  | .permP => "PERM.P"
  | .ksched => "KSCHED"
  | .frnd _ => "FRND"
  | .encblk => "ENCBLK"
  | .encecb => "ENCECB"
  | .enccbc => "ENCCBC"

/-- The command word of a command: `op` in bits 15:8, `arg` in bits 7:0 (R41, R44). -/
def Instr.commandWord : Instr → Word
  | .nop => 0x0000
  | .clr => 0x0100
  | .lda _ => 0x1000
  | .ldk _ => 0x1100
  | .ldv _ => 0x1200
  | .ldm _ => 0x1300
  | .permIp => 0x2000
  | .permFp => 0x2001
  | .permPc1 => 0x2002
  | .permPc2 => 0x2003
  | .permE => 0x2004
  | .permP => 0x2005
  | .ksched => 0x3000
  | .frnd r => 0x4000#16 ||| BitVec.ofNat 16 r
  | .encblk => 0x5000
  | .encecb => 0x6000
  | .enccbc => 0x6100

/-- A 16-bit word as bytes, most significant byte first (R42). -/
def bytesOfWord (w : Word) : ByteSeq := [w.extractLsb' 8 8, w.extractLsb' 0 8]

/-- The payload of a bit load: the bits, then pad bits 0 up to a whole number of bytes (R43). -/
def payloadOfBits (S : BitSeq) : ByteSeq := bytesOfBits (S ++ zeros (8 * ceilDiv8 S.length - S.length))

/-- The length word and payload that follow the command word in formats L and LB; nothing in format C (R42). -/
def Instr.operandBytes : Instr → ByteSeq
  | .lda S => bytesOfWord (BitVec.ofNat 16 S.length) ++ payloadOfBits S
  | .ldk S => bytesOfWord (BitVec.ofNat 16 S.length) ++ payloadOfBits S
  | .ldv S => bytesOfWord (BitVec.ofNat 16 S.length) ++ payloadOfBits S
  | .ldm P => bytesOfWord (BitVec.ofNat 16 P.length) ++ P
  | .nop => []
  | .clr => []
  | .permIp => []
  | .permFp => []
  | .permPc1 => []
  | .permPc2 => []
  | .permE => []
  | .permP => []
  | .ksched => []
  | .frnd _ => []
  | .encblk => []
  | .encecb => []
  | .enccbc => []

/-- `encode`: the byte string of a well-formed command (R42, R43, R46). -/
def encode (i : Instr) : ByteSeq := bytesOfWord i.commandWord ++ i.operandBytes

/-- The bytes of an instruction whose bits are `w`, numbered as the opcode table numbers them: 16-bit words, the first
word in bits 15:0, each stored most significant byte first (R42); `k` words. -/
def bytesOfTableWords (w : Nat) : Nat → ByteSeq
  | 0 => []
  | k + 1 => bytesOfWord (BitVec.ofNat 16 w) ++ bytesOfTableWords (w / 65536) k

/-- How many bytes the command that begins with these bytes has, a missing length word read as 0 (R42). -/
def commandLength (B : ByteSeq) : Nat :=
  match B with
  | op :: _ :: rest =>
    if isLoadOp op then 4 + payloadLength op (256 * (rest.getD 0 0).toNat + (rest.getD 1 0).toNat) else 2
  | _ => 2

/-- The whole command that `nbits` table bits `w` begin, every bit above `nbits` 0: its words, then zero bytes up to
its length (log entry 18). -/
def tableWordBytes (nbits w : Nat) : ByteSeq :=
  let B := bytesOfTableWords (w % 2 ^ nbits) ((nbits + 15) / 16)
  B ++ List.replicate (commandLength B - B.length) 0

/-- The command the decoder reads from `nbits` table bits `w`. -/
def decodeTableWord (nbits w : Nat) : Option Instr :=
  match decode (tableWordBytes nbits w) with
  | .command i _ => some i
  | .illegal _ _ => none
  | .incomplete => none

end Sys2Proof
end

