-- ==== Sys2Proof/Machine/Fetch.lean ====
section
/-! DEFINITION. What goes with taking a command from the stream (spec/30_encoding.md R45 to R47). -/
namespace Sys2Proof.Machine

/-- The engine continues with the bytes after `used` (R47). -/
def consume (used : Nat) (s : State) : State := { s with port := s.port.drop used }

/-- An illegal command raises IllegalCommand whatever makes it illegal: no store is emptied or changed (R45, R120), and
the stream goes on after it (R47). -/
def runIllegal (_why : Illegal) (used : Nat) (s : State) : State := raise .illegalCommand .nothing (consume used s)

end Sys2Proof.Machine
end

