-- ==== Sys2Proof/Machine/HostMoves.lean ====
section
/-! DEFINITION. The host's moves (spec/70_reset_and_hazards.md R131, R143), taken between commands. -/
namespace Sys2Proof.Machine

/-- What one move does. Presenting bytes appends them to the stream. A read leaves the engine as it is and gives the
host a value. Reset sets the engine to its reset state and drops the bytes of a command that is not yet complete
(R131, log entry 8). -/
def applyMove (move : HostMove) (s : State) : State :=
  match move with
  | .present B => { s with port := s.port ++ B }
  | .readRegister n => { s with readout := some (s.readRegister n) }
  | .reset => { s with toEngine := Engine.reset, port := [] }

/-- The host's turn, when no complete command is present: its next move. Without one the state stays as it is, for the
engine has no step of its own and waits for the rest of an incomplete command (R46, R140, log entry 7). -/
def hostTurn (s : State) : State :=
  match s.moves with
  | [] => s
  | move :: rest => applyMove move { s with moves := rest }

end Sys2Proof.Machine
end

