-- ==== Sys2Proof/Machine/Step.lean ====
section
/-! DEFINITION. One step of the machine: the first command presented, or else the host's next move
(spec/30_encoding.md R46, R47). -/
namespace Sys2Proof.Machine

/-- A complete legal command is consumed and executed, a complete illegal one is consumed and raises IllegalCommand.
With no complete command present it is the host's turn. -/
def step (s : State) : Host.Outcome State Fault Refusal :=
  match decode s.port with
  | .command i used => exec i (consume used s)
  | .illegal why used => .next (runIllegal why used s)
  | .incomplete => .next (hostTurn s)

/-- The host has presented exactly the command that `nbits` table bits `w` begin (log entries 6 and 18). -/
def State.withFetchWord (s : State) (nbits w : Nat) : State := { s with port := tableWordBytes nbits w }

end Sys2Proof.Machine
end

