-- ==== Sys2Proof/Safety.lean ====
section
/-! DEFINITION. What the spec says of every reachable state (spec/10_state.md R26), the memory's form
(spec/20_memory.md R28), and a clean run (spec/70_reset_and_hazards.md R140). -/
namespace Sys2Proof.Machine

/-- The form of the two byte stores (R17, R19, R26, log entry 2): MSG within MSGCAP; CPH a whole number of 8-byte Blocks
within CPHCAP. A store is the list of its bytes from address 0 on, so equal memories are equal data. -/
def Memory.wf (e : Engine) : Bool :=
  decide (e.msg.length ≤ Config.MSGCAP) && decide (e.cph.length % 8 = 0) && decide (e.cph.length ≤ Config.CPHCAP)

/-- The invariants of R26. Item 1's `len(A) = ALEN` and its like hold by construction (log entry 1). -/
structure Engine.Inv (e : Engine) : Prop where
  /-- Item 1: `ALEN ≤ 128`. -/
  aCap : e.a.length ≤ Config.OPCAP
  /-- Item 1: `KLEN ≤ 128`. -/
  kCap : e.k.length ≤ Config.OPCAP
  /-- Item 1: `VLEN ≤ 128`. -/
  vCap : e.v.length ≤ Config.OPCAP
  /-- Item 1: `MLEN ≤ MSGCAP`; item 2: `CLEN` is a multiple of 8 up to CPHCAP. -/
  memory : Memory.wf e = true
  /-- Item 2: `QLEN ∈ {0, 32, 48, 56, 64}`. -/
  qLengths : e.q.length ∈ [0, 32, 48, 56, 64]
  /-- Item 3: `RKV = 1` implies `KLEN = 64` and `RK[r] = KS(K)[r]`. -/
  keysValid : e.rkv = true → e.k.length = 64 ∧ ∀ r, 1 ≤ r → r ≤ 16 → e.rkBits r = roundKey e.k r
  /-- Item 4: `RKV = 0` implies `RK[r] = zeros(48)`. -/
  keysCleared : e.rkv = false → ∀ r, 1 ≤ r → r ≤ 16 → e.rkBits r = zeros 48
  /-- Item 5: `ECODE ∈ {0, ..., 7}`. -/
  ecodeRange : e.ecode.toNat ≤ 7
  /-- Item 5: `ECODE ≠ 0` implies `ESTICKY = 1`. -/
  stickySet : e.ecode ≠ 0 → e.esticky = true
  /-- Item 5: `STATUS[15:6] = 0`. -/
  reservedZero : reservedOf e.status = 0

/-- A run is clean when ESTICKY is 0 at its end (R140). -/
def Clean (s : State) : Prop := s.esticky = false

end Sys2Proof.Machine
end

