-- ==== Sys2Proof/Certificates/Slice0/Obligations.lean ====
section
/-! DEFINITION. The statements for the provers, from the numbered rules of spec/. In every statement about a command the
frame is said by one equation between engines: every store, register and byte of memory that the right side does not
name is as before. STATUS is said field by field, and the host's side is said to be kept. -/

open Sys2Proof Sys2Proof.Machine

namespace Sys2Proof.Machine

/-- The host's side of the interface is as before: no command touches it. -/
def HostSideKept (s t : State) : Prop := t.port = s.port ∧ t.moves = s.moves ∧ t.readout = s.readout

/-- STATUS after a success, RKV apart: ECODE 0, ESTICKY and the reserved bits as before (R21). -/
def StatusSucceeds (s t : State) : Prop :=
  t.ecode = 0 ∧ t.esticky = s.esticky ∧ reservedOf t.status = reservedOf s.status

/-- STATUS after an error: its code, ESTICKY set, RKV and the reserved bits as before (R21, R113). -/
def StatusFails (code : BitVec 4) (s t : State) : Prop :=
  t.ecode = code ∧ t.esticky = true ∧ t.rkv = s.rkv ∧ reservedOf t.status = reservedOf s.status

/-- The command fails with an error that empties nothing: STATUS alone changes (R113). -/
def FailsKeepingStores (i : Instr) (code : BitVec 4) (s : State) : Prop :=
  ∃ t, exec i s = .next t ∧ t.toEngine = { s.toEngine with status := t.status } ∧ StatusFails code s t ∧ HostSideKept s t

/-- The command fails and empties `Q`; every other store, RK and RKV keep their values (R113). -/
def FailsEmptyingQ (i : Instr) (code : BitVec 4) (s : State) : Prop :=
  ∃ t, exec i s = .next t ∧ t.toEngine = { s.toEngine with q := [], status := t.status } ∧ StatusFails code s t ∧
    HostSideKept s t

/-- The command fails and empties `CPH`; every other store, RK and RKV keep their values (R113). -/
def FailsEmptyingCph (i : Instr) (code : BitVec 4) (s : State) : Prop :=
  ∃ t, exec i s = .next t ∧ t.toEngine = { s.toEngine with cph := [], status := t.status } ∧ StatusFails code s t ∧
    HostSideKept s t

/-- The command at the head of the stream is illegal: IllegalCommand is recorded in STATUS, nothing else of the engine
changes, and the stream goes on after it (R47, R120). -/
def RejectedFromTheStream (used : Nat) (s : State) : Prop :=
  ∃ t, step s = .next t ∧ t.toEngine = { s.toEngine with status := t.status } ∧ StatusFails 6 s t ∧
    t.port = s.port.drop used ∧ t.moves = s.moves ∧ t.readout = s.readout

/-- A format C command word of this `op` whose `arg` is not 0 is illegal (R45 item 2). -/
def IllegalArgsAreRejected (op : Byte) : Prop :=
  ∀ (s : State) (arg : Byte) (rest : ByteSeq), s.port = op :: arg :: rest → arg ≠ 0 → RejectedFromTheStream 2 s

/-- A bit load of this `op` is illegal when `arg` is not 0, when it has more than 128 bits, or when a pad bit is 1
(R45 items 2 and 5). The pad bits are those at and after index `n` of the payload's bits (R43). -/
def IllegalBitLoadsAreRejected (op : Byte) : Prop :=
  ∀ (s : State) (arg n1 n0 : Byte) (P rest : ByteSeq), s.port = op :: arg :: n1 :: n0 :: (P ++ rest) →
    P.length = (256 * n1.toNat + n0.toNat + 7) / 8 →
    (arg ≠ 0 ∨ 128 < 256 * n1.toNat + n0.toNat ∨
      ∃ j, 256 * n1.toNat + n0.toNat ≤ j ∧ (bitsOfBytes P)[j]? = some true) →
    RejectedFromTheStream (4 + P.length) s

/-- LDM is illegal when `arg` is not 0 or when it has more than MSGCAP bytes (R45 items 2 and 6). -/
def IllegalByteLoadsAreRejected : Prop :=
  ∀ (s : State) (arg n1 n0 : Byte) (P rest : ByteSeq), s.port = 0x13#8 :: arg :: n1 :: n0 :: (P ++ rest) →
    P.length = 256 * n1.toNat + n0.toNat → (arg ≠ 0 ∨ Config.MSGCAP < P.length) → RejectedFromTheStream (4 + P.length) s

/-- The round-key file of `t` is `KS` of the given key, and is valid (R20, R77). -/
def HoldsRoundKeys (t : State) (key : BitSeq) : Prop :=
  t.rkv = true ∧ ∃ ks, KS key = .ok ks ∧ ks.length = 16 ∧ ∀ r, 1 ≤ r → r ≤ 16 → ks[r - 1]? = some (t.rkBits r)

/-- The PERM commands with their table, its largest entry and the length of the result (R58, R67 to R72). -/
def permCommands : List (Instr × PermTable × Nat × Nat) :=
  [(.permIp, tableIP, 64, 64), (.permFp, tableFP, 64, 64), (.permPc1, tablePC1, 63, 56), (.permPc2, tablePC2, 56, 48),
    (.permE, tableE, 32, 48), (.permP, tableP, 32, 32)]

/-- Bit sequences that differ at parity positions only: standard positions 8, 16, ..., 64 (R79). -/
def SameButParity (x y : BitSeq) : Prop :=
  x.length = 64 ∧ y.length = 64 ∧ ∀ i, i < 64 → i % 8 ≠ 7 → x[i]? = y[i]?

/-- The store a command's result goes to, which an error of it empties (R113). -/
def resultStore : Instr → ResultStore
  | .nop => .nothing
  | .clr => .nothing
  | .lda _ => .nothing
  | .ldk _ => .nothing
  | .ldv _ => .nothing
  | .ldm _ => .nothing
  | .permIp => .q
  | .permFp => .q
  | .permPc1 => .q
  | .permPc2 => .q
  | .permE => .q
  | .permP => .q
  | .ksched => .nothing
  | .frnd _ => .q
  | .encblk => .q
  | .encecb => .cph
  | .enccbc => .cph

end Sys2Proof.Machine

/-! ### Reset, registers, the host -/

/-- R27: after reset every store is empty, every length 0, every round key zero, STATUS 0x0000. -/
def Obligations.ResetLeavesEverythingEmpty : Prop :=
  State.reset.a = [] ∧ State.reset.k = [] ∧ State.reset.v = [] ∧ State.reset.msg = [] ∧ State.reset.q = [] ∧
  State.reset.cph = [] ∧ State.reset.status = 0x0000#16 ∧
  (∀ n, 1 ≤ n → n ≤ 6 → State.reset.readRegister n = .word 0) ∧
  (∀ r, 1 ≤ r → r ≤ 16 → State.reset.rkBits r = zeros 48)

/-- R22: what each register number reads as; every number not listed, and number 7, reads as 0. -/
def Obligations.RegisterNumbersReadTheStores : Prop :=
  ∀ e : Engine,
    e.readRegister 0 = .word e.status ∧
    (∃ w, e.readRegister 1 = .word w ∧ w.toNat = e.a.length % 65536) ∧
    (∃ w, e.readRegister 2 = .word w ∧ w.toNat = e.k.length % 65536) ∧
    (∃ w, e.readRegister 3 = .word w ∧ w.toNat = e.v.length % 65536) ∧
    (∃ w, e.readRegister 4 = .word w ∧ w.toNat = e.msg.length % 65536) ∧
    (∃ w, e.readRegister 5 = .word w ∧ w.toNat = e.q.length % 65536) ∧
    (∃ w, e.readRegister 6 = .word w ∧ w.toNat = e.cph.length % 65536) ∧
    e.readRegister 16 = .bits e.a ∧ e.readRegister 17 = .bits e.k ∧ e.readRegister 18 = .bits e.v ∧
    e.readRegister 19 = .bytes e.msg ∧ e.readRegister 20 = .bits e.q ∧ e.readRegister 21 = .bytes e.cph ∧
    (∀ r, 1 ≤ r → r ≤ 16 → ∃ b, e.readRegister (32 + r) = .bits b ∧ b.length = 48 ∧
      some (BitVec.ofNat 48 (val b)) = e.rk[r - 1]?) ∧
    (∀ n, n = 7 ∨ (8 ≤ n ∧ n ≤ 15) ∨ (22 ≤ n ∧ n ≤ 32) ∨ 49 ≤ n → e.readRegister n = .word 0)

/-- R22, R26: in a state with the invariant each length register holds the exact length of its store, none wrapped. -/
def Obligations.LengthRegistersNeverWrap : Prop :=
  ∀ e : Engine, e.Inv →
    e.alen.toNat = e.a.length ∧ e.klen.toNat = e.k.length ∧ e.vlen.toNat = e.v.length ∧
    e.mlen.toNat = e.msg.length ∧ e.qlen.toNat = e.q.length ∧ e.clen.toNat = e.cph.length

/-- R143, R46, R47: the host's two moves that leave the engine as it is, taken when no complete command is present: a
read gives the host the register's value, and presented bytes join the stream. -/
def Obligations.HostReadsAndPresentsWithoutSideEffect : Prop :=
  ∀ (s : State) (rest : List HostMove), decode s.port = .incomplete →
    (∀ n, s.moves = .readRegister n :: rest →
      ∃ t, step s = .next t ∧ t.toEngine = s.toEngine ∧ t.readout = some (s.readRegister n) ∧ t.port = s.port ∧
        t.moves = rest) ∧
    (∀ B, s.moves = .present B :: rest →
      ∃ t, step s = .next t ∧ t.toEngine = s.toEngine ∧ t.port = s.port ++ B ∧ t.moves = rest ∧ t.readout = s.readout)

/-- R131: reset sets the whole engine to its reset state, whatever was before. That bytes of a command not yet complete
are dropped is the model's choice (log entry 8). -/
def Obligations.ResetMoveResetsTheEngine : Prop :=
  ∀ (s : State) (rest : List HostMove), decode s.port = .incomplete → s.moves = .reset :: rest →
    ∃ t, step s = .next t ∧ t.toEngine = State.reset.toEngine ∧ t.port = [] ∧ t.moves = rest ∧ t.readout = s.readout

/-- R46, R140: with no complete command and no host move nothing changes. -/
def Obligations.IncompleteCommandWaits : Prop :=
  ∀ s : State, decode s.port = .incomplete → s.moves = [] → step s = .next s

/-! ### The step -/

/-- R47: when the stream begins with a legal command, the step is that command's meaning, on the state with the
command's bytes taken from the stream. -/
def Obligations.StepRunsTheDecodedCommand : Prop :=
  ∀ (s : State) (i : Instr) (used : Nat), decode s.port = .command i used →
    step s = exec i { s with port := s.port.drop used }

/-- R45, R120, R47: an illegal command raises IllegalCommand, changes nothing of the engine but STATUS, and is taken
from the stream, which goes on. -/
def Obligations.IllegalCommandChangesOnlyStatus : Prop :=
  ∀ (s : State) (why : Illegal) (used : Nat), decode s.port = .illegal why used → RejectedFromTheStream used s

/-- R122, R125, R46: the machine never stops: every state has a next state, and with a complete command at the head of
the stream the stream gets shorter by at least the command word. -/
def Obligations.StepNeverStopsAndConsumes : Prop :=
  ∀ s : State, ∃ t, step s = .next t ∧
    (decode s.port ≠ .incomplete → t.port.length + 2 ≤ s.port.length)

/-- R26: every step keeps the invariants. -/
def Obligations.StepKeepsInvariants : Prop :=
  ∀ s t : State, s.toEngine.Inv → step s = .next t → t.toEngine.Inv

/-- R26, R27: the reset state has the invariants. -/
def Obligations.ResetHasInvariants : Prop := State.reset.toEngine.Inv

/-! ### Encoding -/

/-- R46: decoding an encoded well-formed command gives it back with its length, whatever follows. -/
def Obligations.DecodeOfEncode : Prop :=
  ∀ (i : Instr) (rest : ByteSeq), i.WellFormed → decode (encode i ++ rest) = .command i (encode i).length

/-- R46: on a legal prefix, encoding what was decoded gives back exactly the bytes used. -/
def Obligations.EncodeOfDecode : Prop :=
  ∀ (B : ByteSeq) (i : Instr) (used : Nat), decode B = .command i used →
    i.WellFormed ∧ used ≤ B.length ∧ encode i = B.take used

/-- R44: the decoder follows the opcode map: a command word that decodes to a command selects exactly one row, the row
of that command's mnemonic; and no word at all selects two rows. -/
def Obligations.DecoderFollowsTheOpcodeMap : Prop :=
  (∀ (cw : Word) (rest : ByteSeq) (i : Instr) (used : Nat), decode (bytesOfWord cw ++ rest) = .command i used →
    (opcodeTable.filter fun row => row.selects cw).map (·.mnemonic) = [i.mnemonic]) ∧
  ∀ cw : Word, (opcodeTable.filter fun row => row.selects cw).length ≤ 1

/-- R45 items 1 to 4, R42: which format C encodings are illegal; each uses two bytes. -/
def Obligations.IllegalControlEncodings : Prop :=
  ∀ (op arg : Byte) (rest : ByteSeq),
    (op.toNat ∉ [0x00, 0x01, 0x10, 0x11, 0x12, 0x13, 0x20, 0x30, 0x40, 0x50, 0x60, 0x61] →
      decode (op :: arg :: rest) = .illegal .unassignedOp 2) ∧
    (op.toNat ∈ [0x00, 0x01, 0x30, 0x50, 0x60, 0x61] → arg ≠ 0 →
      decode (op :: arg :: rest) = .illegal .argNotZero 2) ∧
    (op.toNat = 0x20 → 5 < arg.toNat → decode (op :: arg :: rest) = .illegal .noSuchTable 2) ∧
    (op.toNat = 0x40 → arg.toNat = 0 ∨ 16 < arg.toNat → decode (op :: arg :: rest) = .illegal .noSuchRound 2)

/-- R45 items 2, 5, 6, R46: which complete loads are illegal; the length word and the payload `P` are skipped. The pad
bits are those at and after index `n` of the payload's bits (R43). -/
def Obligations.IllegalLoadEncodings : Prop :=
  ∀ (op arg n1 n0 : Byte) (P rest : ByteSeq),
    (op.toNat ∈ [0x10, 0x11, 0x12] → P.length = (256 * n1.toNat + n0.toNat + 7) / 8 →
      (arg ≠ 0 → decode (op :: arg :: n1 :: n0 :: (P ++ rest)) = .illegal .argNotZero (4 + P.length)) ∧
      (arg = 0 → 128 < 256 * n1.toNat + n0.toNat →
        decode (op :: arg :: n1 :: n0 :: (P ++ rest)) = .illegal .tooManyBits (4 + P.length)) ∧
      (arg = 0 → 256 * n1.toNat + n0.toNat ≤ 128 →
        (∃ j, 256 * n1.toNat + n0.toNat ≤ j ∧ (bitsOfBytes P)[j]? = some true) →
        decode (op :: arg :: n1 :: n0 :: (P ++ rest)) = .illegal .padBitSet (4 + P.length))) ∧
    (op.toNat = 0x13 → P.length = 256 * n1.toNat + n0.toNat →
      (arg ≠ 0 → decode (op :: arg :: n1 :: n0 :: (P ++ rest)) = .illegal .argNotZero (4 + P.length)) ∧
      (arg = 0 → Config.MSGCAP < P.length →
        decode (op :: arg :: n1 :: n0 :: (P ++ rest)) = .illegal .messageTooLong (4 + P.length)))

/-- R46: a byte string is an incomplete command exactly when it is shorter than the command word, or is a load shorter
than its length word or its payload. -/
def Obligations.IncompleteExactlyWhenBytesAreMissing : Prop :=
  ∀ B : ByteSeq, decode B = .incomplete ↔
    B.length < 2 ∨ ∃ op arg rest, B = op :: arg :: rest ∧ op.toNat ∈ [0x10, 0x11, 0x12, 0x13] ∧
      (rest.length < 2 ∨ ∃ n1 n0 P, rest = n1 :: n0 :: P ∧
        P.length < if op.toNat = 0x13 then 256 * n1.toNat + n0.toNat else (256 * n1.toNat + n0.toNat + 7) / 8)

/-- R48: worked encodings of the spec decode to the commands they stand for, a word or more of every family. -/
def Obligations.SpecWordsDecode : Prop :=
  decode [0x00, 0x00] = .command .nop 2 ∧ decode [0x01, 0x00] = .command .clr 2 ∧
  decode [0x10, 0x00, 0x00, 0x03, 0xA0] = .command (.lda [true, false, true]) 5 ∧
  decode [0x10, 0x00, 0x00, 0x00] = .command (.lda []) 4 ∧
  decode [0x20, 0x04] = .command .permE 2 ∧ decode [0x30, 0x00] = .command .ksched 2 ∧
  decode [0x40, 0x10] = .command (.frnd 16) 2 ∧ decode [0x50, 0x00] = .command .encblk 2 ∧
  decode [0x60, 0x00] = .command .encecb 2 ∧ decode [0x61, 0x00] = .command .enccbc 2

/-- R30, R31: byte `k` of a byte sequence is at bit indices `8k` to `8k+7`, its bit of weight 128 first; byte `k` of a bit
sequence is the number of its bits `8k` to `8k+7`; the two conversions are inverse to each other. -/
def Obligations.BytesAndBitsAreInverse : Prop :=
  (∀ B : ByteSeq, (bitsOfBytes B).length = 8 * B.length ∧ ∀ k j : Nat, k < B.length → j < 8 →
    (bitsOfBytes B)[8 * k + j]? = (B[k]?).map fun b => b.getLsbD (7 - j)) ∧
  (∀ B : ByteSeq, bytesOfBits (bitsOfBytes B) = B) ∧
  ∀ S : BitSeq, S.length % 8 = 0 → bitsOfBytes (bytesOfBits S) = S ∧ (bytesOfBits S).length = S.length / 8 ∧
    ∀ k b, (bytesOfBits S)[k]? = some b → b.toNat = val ((S.drop (8 * k)).take 8)

/-! ### Loads and control -/

/-- R51: LDA, and the encodings of it that are illegal. -/
def Obligations.LdaLoadsTheDataOperand : Prop :=
  (∀ (S : BitSeq) (s : State), S.length ≤ 128 → (encode (.lda S)).take 2 = [0x10, 0x00] ∧
    ∃ t, exec (.lda S) s = .next t ∧ t.toEngine = { s.toEngine with a := S, status := t.status } ∧
      t.alen.toNat = S.length ∧ StatusSucceeds s t ∧ t.rkv = s.rkv ∧ HostSideKept s t) ∧
  IllegalBitLoadsAreRejected 0x10

/-- R52: LDK, which zeroes and invalidates the round keys, whatever the old key was; and the encodings of it that are
illegal. -/
def Obligations.LdkLoadsTheKeyAndInvalidates : Prop :=
  (∀ (S : BitSeq) (s : State), S.length ≤ 128 → (encode (.ldk S)).take 2 = [0x11, 0x00] ∧
    ∃ t, exec (.ldk S) s = .next t ∧ t.toEngine = { s.toEngine with k := S, rk := t.rk, status := t.status } ∧
      t.klen.toNat = S.length ∧ (∀ r, 1 ≤ r → r ≤ 16 → t.rkBits r = zeros 48) ∧ t.rkv = false ∧
      StatusSucceeds s t ∧ HostSideKept s t) ∧
  IllegalBitLoadsAreRejected 0x11

/-- R53: LDV, and the encodings of it that are illegal. -/
def Obligations.LdvLoadsTheIv : Prop :=
  (∀ (S : BitSeq) (s : State), S.length ≤ 128 → (encode (.ldv S)).take 2 = [0x12, 0x00] ∧
    ∃ t, exec (.ldv S) s = .next t ∧ t.toEngine = { s.toEngine with v := S, status := t.status } ∧
      t.vlen.toNat = S.length ∧ StatusSucceeds s t ∧ t.rkv = s.rkv ∧ HostSideKept s t) ∧
  IllegalBitLoadsAreRejected 0x12

/-- R54: LDM, and the encodings of it that are illegal. CPH keeps the ciphertext of the previous message. -/
def Obligations.LdmLoadsTheMessage : Prop :=
  (∀ (P : ByteSeq) (s : State), P.length ≤ Config.MSGCAP → (encode (.ldm P)).take 2 = [0x13, 0x00] ∧
    ∃ t, exec (.ldm P) s = .next t ∧ t.toEngine = { s.toEngine with msg := P, status := t.status } ∧
      t.mlen.toNat = P.length ∧ StatusSucceeds s t ∧ t.rkv = s.rkv ∧ HostSideKept s t) ∧
  IllegalByteLoadsAreRejected

/-- R55: NOP. -/
def Obligations.NopClearsEcodeOnly : Prop :=
  encode .nop = [0x00, 0x00] ∧ IllegalArgsAreRejected 0x00 ∧
  ∀ s : State, ∃ t, exec .nop s = .next t ∧ t.toEngine = { s.toEngine with status := t.status } ∧ StatusSucceeds s t ∧
    t.rkv = s.rkv ∧ HostSideKept s t

/-- R56: the post-state of CLR is exactly the reset state: every store empty, every length 0, every round key zero,
STATUS 0x0000. -/
def Obligations.ClrGivesTheResetState : Prop :=
  encode .clr = [0x01, 0x00] ∧ IllegalArgsAreRejected 0x01 ∧
  ∀ s : State, ∃ t, exec .clr s = .next t ∧ t.toEngine = State.reset.toEngine ∧
    t.a = [] ∧ t.k = [] ∧ t.v = [] ∧ t.msg = [] ∧ t.q = [] ∧ t.cph = [] ∧ t.status = 0x0000#16 ∧
    (∀ n, 1 ≤ n → n ≤ 6 → t.readRegister n = .word 0) ∧ (∀ r, 1 ≤ r → r ≤ 16 → t.rkBits r = zeros 48) ∧ HostSideKept s t

/-- R45: a command outside every encoding (an oversize load, a round number that is not 1 to 16), if it were executed,
raises IllegalCommand and changes only STATUS. That `exec` says so too is the model's choice (log entry 10). -/
def Obligations.IllFormedCommandsRaiseIllegalCommand : Prop :=
  ∀ (i : Instr) (s : State), ¬ i.WellFormed → FailsKeepingStores i 6 s

/-! ### Permutation engine -/

/-- R57: `permute` selects `input[table[i] − 1]` when every entry is in bounds, and otherwise fails with
InvalidLength. -/
def Obligations.PermuteContract : Prop :=
  ∀ (S : BitSeq) (T : PermTable),
    ((∀ p ∈ T, 1 ≤ p ∧ p ≤ S.length) →
      ∃ O, permute S T = .ok O ∧ O.length = T.length ∧ ∀ i p : Nat, T[i]? = some p → O[i]? = S[p - 1]?) ∧
    ((∃ p ∈ T, p < 1 ∨ S.length < p) → permute S T = .error .invalidLength)

/-- R67 to R72: a PERM command whose operand has at least as many bits as its table's largest entry writes
`permute(A, T)` to Q, bit by bit, and changes nothing else; with a shorter operand it raises InvalidLength and Q is
emptied. -/
def Obligations.PermCommandsSelectBits : Prop :=
  encode .permIp = [0x20, 0x00] ∧ encode .permFp = [0x20, 0x01] ∧ encode .permPc1 = [0x20, 0x02] ∧
  encode .permPc2 = [0x20, 0x03] ∧ encode .permE = [0x20, 0x04] ∧ encode .permP = [0x20, 0x05] ∧
  ∀ i T bound len, (i, T, bound, len) ∈ permCommands → ∀ s : State,
    (bound ≤ s.a.length → ∃ t, exec i s = .next t ∧ t.toEngine = { s.toEngine with q := t.q, status := t.status } ∧
      permute s.a T = .ok t.q ∧ t.q.length = len ∧ T.length = len ∧ (∀ j p : Nat, T[j]? = some p → t.q[j]? = s.a[p - 1]?) ∧
      t.qlen.toNat = len ∧ StatusSucceeds s t ∧ t.rkv = s.rkv ∧ HostSideKept s t) ∧
    (s.a.length < bound → FailsEmptyingQ i 5 s)

/-- R62: FP is the inverse of IP on 64 bits, both ways round. -/
def Obligations.FinalPermutationInvertsInitial : Prop :=
  ∀ S : BitSeq, S.length = 64 →
    ∃ X Y, permute S tableIP = .ok X ∧ permute X tableFP = .ok S ∧ permute S tableFP = .ok Y ∧ permute Y tableIP = .ok S

/-! ### Key schedule -/

/-- R73 to R77: the halves start from `permute(key, PC1)`, rotate left cumulatively by the schedule, each on its own (the
bit at index `i + n` moves to index `i`), and every round key is `permute(C_r ++ D_r, PC2)`; a key of another length fails. -/
def Obligations.KeyScheduleFollowsItsRounds : Prop :=
  ∀ key : BitSeq,
    (key.length ≠ 64 → KS key = .error .invalidKeyLength) ∧
    (key.length = 64 → ∃ (ks : List BitSeq) (CD : BitSeq) (C D : Nat → BitSeq),
      KS key = .ok ks ∧ ks.length = 16 ∧ permute key tablePC1 = .ok CD ∧
      C 0 = CD.take 28 ∧ D 0 = CD.drop 28 ∧
      (∀ r, r ≤ 16 → (C r).length = 28 ∧ (D r).length = 28) ∧
      ∀ r, 1 ≤ r → r ≤ 16 →
        (∀ i n, i < 28 → n = (if r ∈ [1, 2, 9, 16] then 1 else 2) →
          (C r)[i]? = (C (r - 1))[(i + n) % 28]? ∧ (D r)[i]? = (D (r - 1))[(i + n) % 28]?) ∧
        ∃ K, ks[r - 1]? = some K ∧ K.length = 48 ∧ permute (C r ++ D r) tablePC2 = .ok K)

/-- R79 (a): the round keys do not depend on the parity bits. -/
def Obligations.RoundKeysIgnoreParityBits : Prop :=
  ∀ x y : BitSeq, SameButParity x y → KS x = KS y

/-- R79 (b): the key schedule is linear over XOR. -/
def Obligations.KeyScheduleIsLinear : Prop :=
  ∀ (x y : BitSeq) (r : Nat), x.length = 64 → y.length = 64 → 1 ≤ r → r ≤ 16 →
    roundKey (xorBits x y) r = xorBits (roundKey x r) (roundKey y r)

/-- R80: KSCHED, on a 64-bit key and on any other. -/
def Obligations.KschedWritesTheRoundKeys : Prop :=
  encode .ksched = [0x30, 0x00] ∧ ∀ s : State,
    (s.k.length = 64 →
      ∃ t, exec .ksched s = .next t ∧ t.toEngine = { s.toEngine with rk := t.rk, status := t.status } ∧
        HoldsRoundKeys t s.k ∧ StatusSucceeds s t ∧ HostSideKept s t) ∧
    (s.k.length ≠ 64 → FailsKeepingStores .ksched 2 s)

/-! ### Mangler -/

/-- R84, R93: nibble `i` of the substitution layer is the look-up of group `i` in S-box `i`, the outer bits the row and
the inner bits the column, first bits most significant. -/
def Obligations.SubstitutionLooksUpEachGroup : Prop :=
  ∀ Y : BitSeq, Y.length = 48 → (sboxLayer Y).length = 32 ∧
    ∀ i, i < 8 → ∃ g0 g1 g2 g3 g4 g5 : Bool, (Y.drop (6 * i)).take 6 = [g0, g1, g2, g3, g4, g5] ∧
      ((sboxLayer Y).drop (4 * i)).take 4 =
        bitsN 4 (SBox i (2 * g0.toNat + g5.toNat) (8 * g1.toNat + 4 * g2.toNat + 2 * g3.toNat + g4.toNat))

/-- R84: every row of every S-box is a permutation of 0..15, and the eight are distinct. -/
def Obligations.SboxRowsArePermutations : Prop :=
  sboxTables.length = 8 ∧ sboxTables.Nodup ∧
  ∀ b ∈ sboxTables, b.length = 4 ∧ ∀ row ∈ b, row.length = 16 ∧ ∀ x, x < 16 → x ∈ row

/-- R95: the mangler is its four steps, on a 32-bit half and a 48-bit key, and gives 32 bits. -/
def Obligations.ManglerIsItsFourSteps : Prop :=
  ∀ R K : BitSeq, R.length = 32 → K.length = 48 →
    ∃ X F, permute R tableE = .ok X ∧ X.length = 48 ∧
      permute (sboxLayer (List.zipWith xor X K)) tableP = .ok F ∧ F.length = 32 ∧ mangler R K = F

/-- R96: FRND r with 32 bits in A and valid round keys; the length is tested first, then readiness. -/
def Obligations.FrndAppliesTheMangler : Prop :=
  ∀ (r : Nat) (s : State), 1 ≤ r → r ≤ 16 → encode (.frnd r) = [0x40, BitVec.ofNat 8 r] ∧
    (s.a.length = 32 → s.rkv = true →
      ∃ t, exec (.frnd r) s = .next t ∧ t.toEngine = { s.toEngine with q := t.q, status := t.status } ∧
        t.q = mangler s.a (s.rkBits r) ∧ t.qlen = 32 ∧ StatusSucceeds s t ∧ t.rkv = s.rkv ∧ HostSideKept s t) ∧
    (s.a.length ≠ 32 → FailsEmptyingQ (.frnd r) 1 s) ∧
    (s.a.length = 32 → s.rkv = false → FailsEmptyingQ (.frnd r) 7 s)

/-! ### Block cipher -/

/-- R98 to R102: the two length tests, the plaintext first; then the rounds, from the initial permutation to the final
one. -/
def Obligations.EncryptBlockFollowsItsRounds : Prop :=
  ∀ plaintext key : BitSeq,
    (plaintext.length ≠ 64 → encryptBlock plaintext key = .error .invalidBlockLength) ∧
    (plaintext.length = 64 → key.length ≠ 64 → encryptBlock plaintext key = .error .invalidKeyLength) ∧
    (plaintext.length = 64 → key.length = 64 →
      ∃ (B C : BitSeq) (ks : List BitSeq) (L R : Nat → BitSeq),
        permute plaintext tableIP = .ok B ∧ KS key = .ok ks ∧ L 0 = B.take 32 ∧ R 0 = B.drop 32 ∧
        (∀ r, 1 ≤ r → r ≤ 16 → ∃ K, ks[r - 1]? = some K ∧
          L r = R (r - 1) ∧ R r = List.zipWith xor (mangler (R (r - 1)) K) (L (r - 1)) ∧ (R r).length = 32) ∧
        permute (R 16 ++ L 16) tableFP = .ok C ∧ encryptBlock plaintext key = .ok C ∧ C.length = 64)

/-- R104: ENCBLK on a 64-bit block and a 64-bit key; the block's length is tested first, then the key's. -/
def Obligations.EncblkEncryptsTheBlock : Prop :=
  encode .encblk = [0x50, 0x00] ∧ ∀ s : State,
    (s.a.length = 64 → s.k.length = 64 →
      ∃ t, exec .encblk s = .next t ∧ t.toEngine = { s.toEngine with q := t.q, rk := t.rk, status := t.status } ∧
        encryptBlock s.a s.k = .ok t.q ∧ t.qlen = 64 ∧ HoldsRoundKeys t s.k ∧ StatusSucceeds s t ∧ HostSideKept s t) ∧
    (s.a.length ≠ 64 → FailsEmptyingQ .encblk 1 s) ∧
    (s.a.length = 64 → s.k.length ≠ 64 → FailsEmptyingQ .encblk 2 s)

/-- R103 (c): for a fixed key encryptBlock is a bijection on 64-bit Blocks. -/
def Obligations.EncryptBlockIsBijective : Prop :=
  ∀ key C : BitSeq, key.length = 64 → C.length = 64 →
    ∃ P : BitSeq, (P.length = 64 ∧ encryptBlock P key = .ok C) ∧
      ∀ P' : BitSeq, P'.length = 64 → encryptBlock P' key = .ok C → P' = P

/-- spec/95_test_vectors.md V5.5: complementing block and key complements the ciphertext (from R83 and R100). -/
def Obligations.EncryptBlockComplements : Prop :=
  ∀ P key C : BitSeq, encryptBlock P key = .ok C →
    encryptBlock (P.map (!·)) (key.map (!·)) = .ok (C.map (!·))

/-! ### Modes -/

/-- R33, and the bytes R34's MemWrite sets: MemRead gives the message's bytes, and 0x00 beyond its end; a message has
`ceil(MLEN / 8)` Blocks, Block `i` read at `8·(i − 1)`; MemWrite sets the bytes it writes and no other. -/
def Obligations.MemReadAndMemWriteByByte : Prop :=
  (∀ (msg : ByteSeq) (addr n : Nat), (memRead msg addr n).length = n ∧
    ∀ i, i < n → (memRead msg addr n)[i]? = if addr + i < msg.length then msg[addr + i]? else some 0x00#8) ∧
  (∀ msg : ByteSeq, 8 * nblocks msg < msg.length + 8 ∧ msg.length ≤ 8 * nblocks msg ∧
    ∀ i, messageBlock msg i = bitsOfBytes (memRead msg (8 * (i - 1)) 8) ∧ (messageBlock msg i).length = 64) ∧
  ∀ (cph v : ByteSeq) (addr : Nat), addr ≤ cph.length → ∀ a,
    (addr ≤ a → a < addr + v.length → (memWrite cph addr v)[a]? = v[a - addr]?) ∧
    (a < addr ∨ addr + v.length ≤ a → (memWrite cph addr v)[a]? = cph[a]?)

/-- R111: ENCECB on a message of 8 bytes or more and a 64-bit key: each 8-byte Block of CPH is encryptBlock of the same
Block of the zero-filled message. The message's length is tested first, then the key's. -/
def Obligations.EncecbEncryptsEveryBlock : Prop :=
  encode .encecb = [0x60, 0x00] ∧ ∀ s : State,
    (8 ≤ s.msg.length → s.k.length = 64 →
      ∃ t, exec .encecb s = .next t ∧ t.toEngine = { s.toEngine with cph := t.cph, rk := t.rk, status := t.status } ∧
        t.cph.length = 8 * ((s.msg.length + 7) / 8) ∧ ecb s.msg s.k = .ok t.cph ∧
        (∀ i, 1 ≤ i → i ≤ (s.msg.length + 7) / 8 → ∃ C,
          encryptBlock (bitsOfBytes (memRead s.msg (8 * (i - 1)) 8)) s.k = .ok C ∧
          (t.cph.drop (8 * (i - 1))).take 8 = bytesOfBits C) ∧
        HoldsRoundKeys t s.k ∧ StatusSucceeds s t ∧ HostSideKept s t) ∧
    (s.msg.length < 8 → FailsEmptyingCph .encecb 4 s) ∧
    (8 ≤ s.msg.length → s.k.length ≠ 64 → FailsEmptyingCph .encecb 2 s)

/-- R112: ENCCBC on a message of 8 bytes or more, a 64-bit key and a 64-bit IV: each Block is XORed with the ciphertext
Block before it, the first with the IV, which is kept. Message, key and IV are tested in that order. -/
def Obligations.EnccbcChainsTheBlocks : Prop :=
  encode .enccbc = [0x61, 0x00] ∧ ∀ s : State,
    (8 ≤ s.msg.length → s.k.length = 64 → s.v.length = 64 →
      ∃ (t : State) (C : Nat → BitSeq), exec .enccbc s = .next t ∧
        t.toEngine = { s.toEngine with cph := t.cph, rk := t.rk, status := t.status } ∧
        t.cph.length = 8 * ((s.msg.length + 7) / 8) ∧ cbc s.msg s.k s.v = .ok t.cph ∧ C 0 = s.v ∧
        (∀ i, 1 ≤ i → i ≤ (s.msg.length + 7) / 8 →
          encryptBlock (List.zipWith xor (bitsOfBytes (memRead s.msg (8 * (i - 1)) 8)) (C (i - 1))) s.k = .ok (C i) ∧
          (t.cph.drop (8 * (i - 1))).take 8 = bytesOfBits (C i)) ∧
        HoldsRoundKeys t s.k ∧ StatusSucceeds s t ∧ HostSideKept s t) ∧
    (s.msg.length < 8 → FailsEmptyingCph .enccbc 4 s) ∧
    (8 ≤ s.msg.length → s.k.length ≠ 64 → FailsEmptyingCph .enccbc 2 s) ∧
    (8 ≤ s.msg.length → s.k.length = 64 → s.v.length ≠ 64 → FailsEmptyingCph .enccbc 3 s)

/-- R135: the Blocks of ENCECB may be computed and written in any order, over whatever CPH held before: the result is
that of R107. -/
def Obligations.EcbOrderIsFree : Prop :=
  ∀ (msg cph out : ByteSeq) (key : BitSeq) (order : List Nat), ecb msg key = .ok out →
    order.Perm (blockNumbers msg) → (ecbWrites (roundKeys key) msg cph order).take (8 * nblocks msg) = out

/-- R110: with two identical plaintext Blocks, the two CBC ciphertext Blocks are equal exactly when the IV is the first
of them. -/
def Obligations.CbcDiffusionExactCondition : Prop :=
  ∀ (M : ByteSeq) (key iv C1 C2 : BitSeq), M.length = 8 → C1.length = 64 → C2.length = 64 →
    cbc (M ++ M) key iv = .ok (bytesOfBits C1 ++ bytesOfBits C2) → (C1 = C2 ↔ iv = C1)

/-- R110: a one-Block message under CBC is the XORed message under ECB. -/
def Obligations.CbcOfOneBlockIsEcbOfXor : Prop :=
  ∀ (M : ByteSeq) (key iv : BitSeq), M.length = 8 → key.length = 64 → iv.length = 64 →
    cbc M key iv = ecb (bytesOfBits (List.zipWith xor (bitsOfBytes M) iv)) key

/-- R106: messages that differ only by trailing zero bytes within the last Block give the same ciphertext. -/
def Obligations.ZeroFillIsInvisible : Prop :=
  ∀ (msg : ByteSeq) (n : Nat) (key iv : BitSeq), 8 ≤ msg.length → (msg.length + n + 7) / 8 = (msg.length + 7) / 8 →
    ecb (msg ++ List.replicate n 0) key = ecb msg key ∧ cbc (msg ++ List.replicate n 0) key iv = cbc msg key iv

/-! ### Whole-machine rules -/

/-- R14 to R19: which commands can change which store: the operand stores only their own load, Q only PERM.*, FRND and
ENCBLK, CPH only ENCECB and ENCCBC, and CLR all of them. -/
def Obligations.StoresChangeOnlyByTheirCommands : Prop :=
  ∀ (i : Instr) (s t : State), exec i s = .next t →
    (t.a ≠ s.a → i = .clr ∨ ∃ S, i = .lda S) ∧ (t.k ≠ s.k → i = .clr ∨ ∃ S, i = .ldk S) ∧
    (t.v ≠ s.v → i = .clr ∨ ∃ S, i = .ldv S) ∧ (t.msg ≠ s.msg → i = .clr ∨ ∃ P, i = .ldm P) ∧
    (t.q ≠ s.q → i ∈ [.clr, .permIp, .permFp, .permPc1, .permPc2, .permE, .permP, .encblk] ∨ ∃ r, i = .frnd r) ∧
    (t.cph ≠ s.cph → i ∈ [.clr, .encecb, .enccbc])

/-- R20: only KSCHED, ENCBLK, ENCECB, ENCCBC, LDK and CLR change the round-key file or RKV. -/
def Obligations.RoundKeysChangeOnlyByTheirCommands : Prop :=
  ∀ (i : Instr) (s t : State), exec i s = .next t → t.rk ≠ s.rk ∨ t.rkv ≠ s.rkv →
    i ∈ [.clr, .ksched, .encblk, .encecb, .enccbc] ∨ ∃ S, i = .ldk S

/-- R21, R125: once ESTICKY is set a step clears it only by running CLR or by taking a reset. -/
def Obligations.StickyClearedOnlyByClrOrReset : Prop :=
  ∀ s t : State, step s = .next t → ¬ Clean s → Clean t →
    (∃ used, decode s.port = .command .clr used) ∨
    (decode s.port = .incomplete ∧ ∃ rest, s.moves = .reset :: rest)

/-- R113, R122: whatever error a command raises, its only effect is to record it and to empty the command's result
store: Q for PERM.*, FRND and ENCBLK, CPH for ENCECB and ENCCBC, nothing for the others. -/
def Obligations.ErrorsChangeOnlyStatusAndResult : Prop :=
  ∀ (i : Instr) (s t : State), i.WellFormed → exec i s = .next t → t.ecode ≠ 0 →
    t.a = s.a ∧ t.k = s.k ∧ t.v = s.v ∧ t.msg = s.msg ∧ t.rk = s.rk ∧ StatusFails t.ecode s t ∧ HostSideKept s t ∧
    t.q = (if resultStore i = .q then [] else s.q) ∧ t.cph = if resultStore i = .cph then [] else s.cph

/-- R115 to R119, R121, R123: which error a command with a legal encoding raises, and exactly when: the first that
applies. -/
def Obligations.EachErrorIsRaisedExactlyWhen : Prop :=
  ∀ (i : Instr) (s t : State), i.WellFormed → exec i s = .next t →
    t.ecode.toNat ≤ 7 ∧ t.ecode ≠ 6 ∧
    (t.ecode = 1 ↔ (i = .encblk ∧ s.a.length ≠ 64) ∨ ((∃ r, i = .frnd r) ∧ s.a.length ≠ 32)) ∧
    (t.ecode = 2 ↔ (i = .ksched ∧ s.k.length ≠ 64) ∨ (i = .encblk ∧ s.a.length = 64 ∧ s.k.length ≠ 64) ∨
      ((i = .encecb ∨ i = .enccbc) ∧ 8 ≤ s.msg.length ∧ s.k.length ≠ 64)) ∧
    (t.ecode = 3 ↔ i = .enccbc ∧ 8 ≤ s.msg.length ∧ s.k.length = 64 ∧ s.v.length ≠ 64) ∧
    (t.ecode = 4 ↔ (i = .encecb ∨ i = .enccbc) ∧ s.msg.length < 8) ∧
    (t.ecode = 5 ↔ ∃ T bound len, (i, T, bound, len) ∈ permCommands ∧ s.a.length < bound) ∧
    (t.ecode = 7 ↔ (∃ r, i = .frnd r) ∧ s.a.length = 32 ∧ s.rkv = false)

/-- R126: success is ECODE 0 with a result of the command's full length; failure is another ECODE with an empty
result store. -/
def Obligations.ResultsAreFullOrEmpty : Prop :=
  ∀ (i : Instr) (s t : State), i.WellFormed → exec i s = .next t →
    (∀ T bound len, (i, T, bound, len) ∈ permCommands → if t.ecode = 0 then t.q.length = len else t.q = []) ∧
    (∀ r, i = .frnd r → if t.ecode = 0 then t.q.length = 32 else t.q = []) ∧
    (i = .encblk → if t.ecode = 0 then t.q.length = 64 else t.q = []) ∧
    (i = .encecb ∨ i = .enccbc →
      if t.ecode = 0 then t.cph.length = 8 * ((s.msg.length + 7) / 8) ∧ t.cph ≠ [] else t.cph = [])

/-- R125, R136: retrying is meaningless: a command run again on the state it left changes nothing more. -/
def Obligations.RepeatingACommandChangesNothing : Prop :=
  ∀ (i : Instr) (s t : State), exec i s = .next t → exec i t = .next t
end

