-- ==== Sys2Proof/Laws/Bits.lean ====
section
/-! SUPPORT. Small lemmas of the BitVector utilities: lengths, numbers and their bits, XOR, rotation, bytes. -/
namespace Sys2Proof.Machine

@[simp] theorem bitsN_length (N v : Nat) : (bitsN N v).length = N := by
  induction N with
  | zero => rfl
  | succ N ih => simp [bitsN, ih]

@[simp] theorem zeros_length (n : Nat) : (zeros n).length = n := by simp [zeros]

theorem slice_length (S : BitSeq) (i j : Nat) (h : j ≤ S.length) : (slice S i j).length = j - i := by
  simp [slice]; omega

@[simp] theorem xorBits_length (S T : BitSeq) : (xorBits S T).length = min S.length T.length := by
  simp [xorBits]

theorem xorBits_getElem? (S T : BitSeq) (i : Nat) :
    (xorBits S T)[i]? = (S[i]?).bind fun x => (T[i]?).map fun y => x ^^ y := by
  simp only [xorBits, List.getElem?_zipWith]
  rcases S[i]? with _ | x <;> rcases T[i]? with _ | y <;> rfl

/-- XOR with one sequence twice gives the first back (R141). -/
theorem xorBits_cancel : ∀ {S T : BitSeq}, S.length = T.length → xorBits (xorBits S T) T = S
  | [], _, _ => rfl
  | x :: S, [], h => by simp at h
  | x :: S, y :: T, h => by
    have ih : xorBits (xorBits S T) T = S := xorBits_cancel (by simpa using h)
    simp only [xorBits, List.zipWith_cons_cons] at ih ⊢
    rw [ih]
    cases x <;> cases y <;> rfl

/-- XOR is commutative (R141). -/
theorem xorBits_comm (S T : BitSeq) : xorBits S T = xorBits T S := by
  unfold xorBits
  rw [List.zipWith_comm]
  congr
  funext x y
  cases x <;> cases y <;> rfl

/-- XOR on the left is injective on sequences of one length. -/
theorem xorBits_left_cancel {M S T : BitSeq} (h1 : S.length = M.length) (h2 : T.length = M.length)
    (h : xorBits M S = xorBits M T) : S = T := by
  rw [← xorBits_cancel h1, ← xorBits_cancel h2, xorBits_comm S, xorBits_comm T, h]

@[simp] theorem rotl_length (S : BitSeq) (n : Nat) : (rotl S n).length = S.length := by
  unfold rotl
  rw [List.length_append, List.length_drop, List.length_take]
  rcases Nat.eq_zero_or_pos S.length with h | h
  · omega
  · have := Nat.mod_lt n h
    omega

theorem val_foldl (S : BitSeq) (acc : Nat) :
    S.foldl (fun acc b => 2 * acc + b.toNat) acc = acc * 2 ^ S.length + val S := by
  induction S generalizing acc with
  | nil => simp [val]
  | cons b S ih =>
    simp only [val, List.foldl_cons, List.length_cons] at ih ⊢
    rw [ih, ih (2 * 0 + b.toNat)]
    ring

@[simp] theorem val_nil : val [] = 0 := rfl

theorem val_cons (b : Bool) (S : BitSeq) : val (b :: S) = b.toNat * 2 ^ S.length + val S := by
  have := val_foldl S (2 * 0 + b.toNat)
  simpa [val] using this

theorem val_lt (S : BitSeq) : val S < 2 ^ S.length := by
  induction S with
  | nil => simp
  | cons b S ih =>
    rw [val_cons, List.length_cons, pow_succ]
    cases b <;> simp <;> omega

/-- A number's low bits are not changed by what stands above them. -/
theorem bitsN_add_mul (N v c : Nat) : bitsN N (c * 2 ^ N + v) = bitsN N v := by
  suffices ∀ M, M ≤ N → bitsN M (c * 2 ^ N + v) = bitsN M v from this N le_rfl
  intro M hM
  induction M with
  | zero => rfl
  | succ M ih =>
    rw [bitsN, bitsN, ih (by omega)]
    congr 1
    have h1 := Nat.testBit_mod_two_pow (c * 2 ^ N + v) N M
    have h2 := Nat.testBit_mod_two_pow v N M
    rw [Nat.mul_add_mod_self_right] at h1
    rw [h2] at h1
    simpa [show M < N by omega] using h1.symm

/-- `bits_N(val(S)) = S` (R8). -/
theorem bitsN_val (S : BitSeq) : bitsN S.length (val S) = S := by
  induction S with
  | nil => rfl
  | cons b S ih =>
    rw [List.length_cons, bitsN, val_cons, bitsN_add_mul, ih]
    congr 1
    have h := val_lt S
    cases b
    · simp [Nat.testBit_lt_two_pow h]
    · rw [Bool.toNat_true, Nat.one_mul, Nat.testBit_two_pow_add_eq, Nat.testBit_lt_two_pow h]; rfl

/-- `val(bits_N(v)) = v` for `v < 2^N` (R8). -/
theorem val_bitsN (N v : Nat) (h : v < 2 ^ N) : val (bitsN N v) = v := by
  induction N generalizing v with
  | zero => simp at h; simp [h, bitsN]
  | succ N ih =>
    rw [bitsN, val_cons, bitsN_length]
    by_cases hb : v.testBit N = true
    · have hge : 2 ^ N ≤ v := Nat.ge_two_pow_of_testBit hb
      have hv : v = 1 * 2 ^ N + (v - 2 ^ N) := by omega
      rw [hb, hv, bitsN_add_mul, ih (v - 2 ^ N) (by rw [pow_succ] at h; omega)]
      simp
    · have hlt : v < 2 ^ N := by
        by_contra hge
        exact hb (by
          have : v = 2 ^ N + (v - 2 ^ N) := by omega
          rw [this, Nat.testBit_two_pow_add_eq, Nat.testBit_lt_two_pow (by rw [pow_succ] at h; omega)]; rfl)
      simp only [Bool.not_eq_true] at hb
      rw [hb, ih v hlt]; simp

@[simp] theorem bitsOfByte_length (b : Byte) : (bitsOfByte b).length = 8 := by simp [bitsOfByte]

@[simp] theorem bitsOfBytes_nil : bitsOfBytes [] = [] := rfl

@[simp] theorem bitsOfBytes_cons (b : Byte) (B : ByteSeq) : bitsOfBytes (b :: B) = bitsOfByte b ++ bitsOfBytes B := rfl

@[simp] theorem bitsOfBytes_length (B : ByteSeq) : (bitsOfBytes B).length = 8 * B.length := by
  induction B with
  | nil => rfl
  | cons b B ih => simp [ih]; omega

/-- Eight bits, then the rest: one step of `bytesOfBits`, for an argument by eights. -/
theorem bytesOfBits_append8 (x S : BitSeq) (h : x.length = 8) :
    bytesOfBits (x ++ S) = BitVec.ofNat 8 (val x) :: bytesOfBits S := by
  match x, h with
  | [_, _, _, _, _, _, _, _], _ => rfl

theorem bytesOfBits_length (S : BitSeq) (n : Nat) (h : S.length = 8 * n) : (bytesOfBits S).length = n := by
  induction n generalizing S with
  | zero =>
    have : S = [] := List.length_eq_zero_iff.mp (by omega)
    simp [this, bytesOfBits]
  | succ n ih =>
    rw [← List.take_append_drop 8 S, bytesOfBits_append8 _ _ (by simp; omega), List.length_cons,
      ih _ (by simp; omega)]

@[simp] theorem bitsOfRoundKey_length (k : RoundKey) : (bitsOfRoundKey k).length = 48 := by simp [bitsOfRoundKey]

/-- A round-key register gives back the 48 bits written to it. -/
theorem bitsOfRoundKey_roundKeyOfBits (S : BitSeq) (h : S.length = 48) : bitsOfRoundKey (roundKeyOfBits S) = S := by
  have hlt := val_lt S
  rw [h] at hlt
  unfold bitsOfRoundKey roundKeyOfBits
  rw [BitVec.toNat_ofNat, Nat.mod_eq_of_lt hlt]
  have := bitsN_val S
  rwa [h] at this

@[simp] theorem bitsOfRoundKey_zero : bitsOfRoundKey 0#48 = zeros 48 := by decide

end Sys2Proof.Machine
end

