-- ==== Sys2Proof/Laws/Cipher.lean ====
section
/-! SUPPORT. What the cipher's functions give, by length and by index: the permutation engine, the key schedule, the
mangler, the block cipher. -/
namespace Sys2Proof.Machine

theorem bitAt_eq {S : BitSeq} {i : Nat} (h : i < S.length) : some (bitAt S i) = S[i]? := by
  simp [bitAt, List.getElem?_eq_getElem h]

@[simp] theorem select_length (S : BitSeq) (T : PermTable) : (select S T).length = T.length := by simp [select]

theorem select_getElem? (S : BitSeq) (T : PermTable) (i : Nat) :
    (select S T)[i]? = (T[i]?).map fun p => bitAt S (p - 1) := by simp [select]

theorem inBounds_iff (S : BitSeq) (T : PermTable) : inBounds S T = true ↔ ∀ p ∈ T, 1 ≤ p ∧ p ≤ S.length := by
  simp [inBounds]

theorem permute_ok {S : BitSeq} {T : PermTable} (h : ∀ p ∈ T, 1 ≤ p ∧ p ≤ S.length) :
    permute S T = .ok (select S T) := by
  rw [permute, if_pos ((inBounds_iff S T).mpr h)]

theorem permute_error {S : BitSeq} {T : PermTable} (h : ∃ p ∈ T, p < 1 ∨ S.length < p) :
    permute S T = .error .invalidLength := by
  obtain ⟨p, hp, h⟩ := h
  rw [permute, if_neg]
  rw [inBounds_iff]
  intro hall
  have := hall p hp
  omega

/-- A table whose entries run from 1 to `bound` at most, with `bound` among them, succeeds exactly from `bound` bits
on (R58). -/
theorem permute_by_bound {T : PermTable} {bound : Nat} (h1 : ∀ p ∈ T, 1 ≤ p ∧ p ≤ bound) (h2 : bound ∈ T)
    (S : BitSeq) :
    permute S T = if bound ≤ S.length then .ok (select S T) else .error .invalidLength := by
  split
  · rename_i h
    exact permute_ok fun p hp => ⟨(h1 p hp).1, (h1 p hp).2.trans h⟩
  · rename_i h
    exact permute_error ⟨bound, h2, .inr (by omega)⟩

theorem permute_IP (S : BitSeq) :
    permute S tableIP = if 64 ≤ S.length then .ok (select S tableIP) else .error .invalidLength :=
  permute_by_bound (by decide) (by decide) S

theorem permute_FP (S : BitSeq) :
    permute S tableFP = if 64 ≤ S.length then .ok (select S tableFP) else .error .invalidLength :=
  permute_by_bound (by decide) (by decide) S

theorem permute_PC1 (S : BitSeq) :
    permute S tablePC1 = if 63 ≤ S.length then .ok (select S tablePC1) else .error .invalidLength :=
  permute_by_bound (by decide) (by decide) S

theorem permute_PC2 (S : BitSeq) :
    permute S tablePC2 = if 56 ≤ S.length then .ok (select S tablePC2) else .error .invalidLength :=
  permute_by_bound (by decide) (by decide) S

theorem permute_E (S : BitSeq) :
    permute S tableE = if 32 ≤ S.length then .ok (select S tableE) else .error .invalidLength :=
  permute_by_bound (by decide) (by decide) S

theorem permute_P (S : BitSeq) :
    permute S tableP = if 32 ≤ S.length then .ok (select S tableP) else .error .invalidLength :=
  permute_by_bound (by decide) (by decide) S

@[simp] theorem tableIP_length : tableIP.length = 64 := rfl
@[simp] theorem tableFP_length : tableFP.length = 64 := rfl
@[simp] theorem tablePC1_length : tablePC1.length = 56 := rfl
@[simp] theorem tablePC2_length : tablePC2.length = 48 := rfl
@[simp] theorem tableE_length : tableE.length = 48 := rfl
@[simp] theorem tableP_length : tableP.length = 32 := rfl

@[simp] theorem keyRounds_length (sh : List Nat) (C D : BitSeq) : (keyRounds sh C D).length = sh.length := by
  induction sh generalizing C D with
  | nil => rfl
  | cons n rest ih => simp [keyRounds, ih]

theorem keyRounds_widths (sh : List Nat) (C D : BitSeq) : ∀ K ∈ keyRounds sh C D, K.length = 48 := by
  induction sh generalizing C D with
  | nil => simp [keyRounds]
  | cons n rest ih =>
    intro K hK
    rcases List.mem_cons.mp hK with h | h
    · simp [h]
    · exact ih _ _ K h

@[simp] theorem roundKeys_length (key : BitSeq) : (roundKeys key).length = 16 := by simp [roundKeys, SHIFTS]

theorem roundKeys_widths (key : BitSeq) : ∀ K ∈ roundKeys key, K.length = 48 := keyRounds_widths _ _ _

theorem roundKeys_getD_width (key : BitSeq) {n : Nat} (h : n < 16) : ((roundKeys key).getD n []).length = 48 := by
  have hlt : n < (roundKeys key).length := by simpa using h
  rw [List.getD_eq_getElem _ _ hlt]
  exact roundKeys_widths key _ (List.getElem_mem hlt)

@[simp] theorem sboxNibble_length (Y : BitSeq) (i : Nat) : (sboxNibble Y i).length = 4 := by simp [sboxNibble]

@[simp] theorem sboxLayer_length (Y : BitSeq) : (sboxLayer Y).length = 32 := by
  simp [sboxLayer, List.length_flatMap]

@[simp] theorem mangler_length (R K : BitSeq) : (mangler R K).length = 32 := by simp [mangler]

theorem feistelRound_widths {LR : BitSeq × BitSeq} (K : BitSeq) (hL : LR.1.length = 32) (hR : LR.2.length = 32) :
    (feistelRound LR K).1.length = 32 ∧ (feistelRound LR K).2.length = 32 := by
  simp [feistelRound, hL, hR]

theorem feistel_widths (ks : List BitSeq) {LR : BitSeq × BitSeq} (hL : LR.1.length = 32) (hR : LR.2.length = 32) :
    (feistel ks LR).1.length = 32 ∧ (feistel ks LR).2.length = 32 := by
  induction ks generalizing LR with
  | nil => exact ⟨hL, hR⟩
  | cons K ks ih =>
    obtain ⟨h1, h2⟩ := feistelRound_widths K hL hR
    exact ih h1 h2

@[simp] theorem desBlock_length (ks : List BitSeq) (P : BitSeq) : (desBlock ks P).length = 64 := by simp [desBlock]

theorem encryptBlock_ok {P key : BitSeq} (hP : P.length = 64) (hk : key.length = 64) :
    encryptBlock P key = .ok (desBlock (roundKeys key) P) := by simp [encryptBlock, hP, hk]

theorem KS_ok {key : BitSeq} (hk : key.length = 64) : KS key = .ok (roundKeys key) := by simp [KS, hk]

end Sys2Proof.Machine
end

