-- ==== Sys2Proof/Laws/Decode.lean ====
section
/-! SUPPORT. What the decoder's parts answer, each said once: words as bytes, payloads, and the decoder by format. -/
namespace Sys2Proof

open Sys2Proof.Machine

theorem isLoadOp_iff (op : Byte) : isLoadOp op = true ↔ op = 0x10 ∨ op = 0x11 ∨ op = 0x12 ∨ op = 0x13 := by
  simp [isLoadOp, or_assoc]

theorem toNat_eq_iff (op : Byte) (n : Nat) (h : n < 256) : op.toNat = n ↔ op = BitVec.ofNat 8 n := by
  constructor
  · intro hn
    apply BitVec.eq_of_toNat_eq
    rw [hn, BitVec.toNat_ofNat, Nat.mod_eq_of_lt h]
  · rintro rfl
    rw [BitVec.toNat_ofNat, Nat.mod_eq_of_lt h]

theorem bytesOfWord_length (w : Word) : (bytesOfWord w).length = 2 := rfl

/-- A length word as two bytes, read back as the decoder reads it (R42). -/
theorem bytesOfWord_ofNat (n : Nat) (h : n < 65536) :
    ∃ n1 n0 : Byte, bytesOfWord (BitVec.ofNat 16 n) = [n1, n0] ∧ 256 * n1.toNat + n0.toNat = n := by
  refine ⟨_, _, rfl, ?_⟩
  simp only [BitVec.extractLsb'_toNat, BitVec.toNat_ofNat, Nat.shiftRight_eq_div_pow]
  omega

/-- Two bytes are the length word of the number the decoder reads from them. -/
theorem bytesOfWord_of_bytes (n1 n0 : Byte) : bytesOfWord (BitVec.ofNat 16 (256 * n1.toNat + n0.toNat)) = [n1, n0] := by
  have h1 := n1.isLt
  have h0 := n0.isLt
  unfold bytesOfWord
  congr 1
  · apply BitVec.eq_of_toNat_eq
    simp only [BitVec.extractLsb'_toNat, BitVec.toNat_ofNat, Nat.shiftRight_eq_div_pow]
    omega
  · congr 1
    apply BitVec.eq_of_toNat_eq
    simp only [BitVec.extractLsb'_toNat, BitVec.toNat_ofNat, Nat.shiftRight_eq_div_pow]
    omega

theorem ceilDiv8_bits (n : Nat) : n ≤ 8 * ceilDiv8 n ∧ 8 * ceilDiv8 n < n + 8 := by
  unfold ceilDiv8; omega

theorem payloadOfBits_length (S : BitSeq) : (payloadOfBits S).length = ceilDiv8 S.length := by
  have := ceilDiv8_bits S.length
  apply bytesOfBits_length
  simp; omega

/-- The decoder on a load with its whole payload present. -/
theorem decode_load {op arg n1 n0 : Byte} {P rest : ByteSeq} (hop : isLoadOp op = true)
    (hP : P.length = payloadLength op (256 * n1.toNat + n0.toNat)) :
    decode (op :: arg :: n1 :: n0 :: (P ++ rest)) =
      decodePayload op arg (256 * n1.toNat + n0.toNat) P (4 + P.length) := by
  simp only [decode, hop, if_true, decodeLoad, ← hP]
  rw [if_neg (by simp), List.take_left]

/-- The decoder on format C. -/
theorem decode_control {op arg : Byte} {rest : ByteSeq} (hop : isLoadOp op = false) :
    decode (op :: arg :: rest) = decodeControl op arg := by simp [decode, hop]

/-- Format C is never incomplete and uses two bytes. -/
theorem decodeControl_used (op arg : Byte) :
    (∃ i, decodeControl op arg = .command i 2) ∨ (∃ why, decodeControl op arg = .illegal why 2) := by
  unfold decodeControl decodePlain decodePerm
  split <;> first
    | (split <;> first | exact .inl ⟨_, rfl⟩ | exact .inr ⟨_, rfl⟩)
    | exact .inr ⟨_, rfl⟩

/-- A load with its payload uses exactly the bytes it was given. -/
theorem decodePayload_used (op arg : Byte) (n : Nat) (P : ByteSeq) (used : Nat) :
    (∃ i, decodePayload op arg n P used = .command i used) ∨
    (∃ why, decodePayload op arg n P used = .illegal why used) := by
  unfold decodePayload
  split
  · exact .inr ⟨_, rfl⟩
  · split
    · split
      · exact .inl ⟨_, rfl⟩
      · exact .inr ⟨_, rfl⟩
    · split
      · exact .inr ⟨_, rfl⟩
      · split
        · exact .inr ⟨_, rfl⟩
        · split
          · exact .inl ⟨_, rfl⟩
          · split
            · exact .inl ⟨_, rfl⟩
            · exact .inl ⟨_, rfl⟩

/-- The decoder by cases: too short, format C, a load cut short, a whole load (R46). -/
theorem decode_cases (B : ByteSeq) :
    (B.length < 2 ∧ decode B = .incomplete) ∨
    (∃ op arg rest, B = op :: arg :: rest ∧ isLoadOp op = false ∧ decode B = decodeControl op arg) ∨
    (∃ op arg rest, B = op :: arg :: rest ∧ isLoadOp op = true ∧ decode B = .incomplete ∧
      (rest.length < 2 ∨ ∃ n1 n0 P, rest = n1 :: n0 :: P ∧
        P.length < payloadLength op (256 * n1.toNat + n0.toNat))) ∨
    (∃ op arg n1 n0 P rest, B = op :: arg :: n1 :: n0 :: (P ++ rest) ∧ isLoadOp op = true ∧
      P.length = payloadLength op (256 * n1.toNat + n0.toNat) ∧
      decode B = decodePayload op arg (256 * n1.toNat + n0.toNat) P (4 + P.length)) := by
  match B with
  | [] => exact .inl ⟨by simp, rfl⟩
  | [_] => exact .inl ⟨by simp, rfl⟩
  | op :: arg :: rest =>
    cases hop : isLoadOp op
    · exact .inr (.inl ⟨op, arg, rest, rfl, hop, decode_control hop⟩)
    · match rest with
      | [] => exact .inr (.inr (.inl ⟨op, arg, [], rfl, hop, by simp [decode, hop, decodeLoad], .inl (by simp)⟩))
      | [n] => exact .inr (.inr (.inl ⟨op, arg, [n], rfl, hop, by simp [decode, hop, decodeLoad], .inl (by simp)⟩))
      | n1 :: n0 :: P' =>
        by_cases h : P'.length < payloadLength op (256 * n1.toNat + n0.toNat)
        · exact .inr (.inr (.inl ⟨op, arg, _, rfl, hop, by simp [decode, hop, decodeLoad, h],
            .inr ⟨n1, n0, P', rfl, h⟩⟩))
        · have hlen : (P'.take (payloadLength op (256 * n1.toNat + n0.toNat))).length =
              payloadLength op (256 * n1.toNat + n0.toNat) := by simp; omega
          refine .inr (.inr (.inr ⟨op, arg, n1, n0, P'.take (payloadLength op (256 * n1.toNat + n0.toNat)),
            P'.drop (payloadLength op (256 * n1.toNat + n0.toNat)), ?_, hop, hlen, ?_⟩))
          · rw [List.take_append_drop]
          · have := decode_load (arg := arg) (rest := P'.drop (payloadLength op (256 * n1.toNat + n0.toNat))) hop hlen
            rwa [List.take_append_drop] at this

end Sys2Proof
end

