-- ==== Sys2Proof/Laws/Flags.lean ====
section
/-! SUPPORT. Reading a field of STATUS after writing one (R21): each field is its own. -/
namespace Sys2Proof.Machine

section Fields
variable (r : BitVec 10) (k e : Bool) (c : BitVec 4) (w : Word) (b : Bool)

/-- Each bit of a STATUS word, by its place. -/
theorem getLsbD_statusWord (i : Nat) : (statusWord r k e c).getLsbD i =
    if i < 4 then c.getLsbD i else if i = 4 then e else if i = 5 then k else r.getLsbD (i - 6) := by
  simp only [statusWord, BitVec.getLsbD_append, BitVec.getLsbD_ofBool]
  by_cases h4 : i < 4
  · simp [h4]
  · by_cases h5 : i = 4
    · subst h5; simp
    · by_cases h6 : i = 5
      · subst h6; simp
      · have h1 : ¬ i - 4 < 1 := by omega
        have h2 : ¬ i - 4 - 1 < 1 := by omega
        have h3 : i - 4 - 1 - 1 = i - 6 := by omega
        simp [h4, h5, h6, h1, h2, h3]

@[simp] theorem ecodeOf_statusWord : ecodeOf (statusWord r k e c) = c := by
  apply BitVec.eq_of_getLsbD_eq
  intro i hi
  simp only [ecodeOf, BitVec.getLsbD_extractLsb', getLsbD_statusWord]
  simp [hi]

@[simp] theorem estickyOf_statusWord : estickyOf (statusWord r k e c) = e := by
  rw [estickyOf, getLsbD_statusWord]; simp

@[simp] theorem rkvOf_statusWord : rkvOf (statusWord r k e c) = k := by
  rw [rkvOf, getLsbD_statusWord]; simp

@[simp] theorem reservedOf_statusWord : reservedOf (statusWord r k e c) = r := by
  apply BitVec.eq_of_getLsbD_eq
  intro i hi
  have h1 : ¬ 6 + i < 4 := by omega
  have h2 : ¬ 6 + i = 4 := by omega
  have h3 : ¬ 6 + i = 5 := by omega
  simp only [reservedOf, BitVec.getLsbD_extractLsb', getLsbD_statusWord]
  simp [hi, h1, h2, h3]

/-- A STATUS word is its four fields and nothing else. -/
theorem statusWord_fields : statusWord (reservedOf w) (rkvOf w) (estickyOf w) (ecodeOf w) = w := by
  apply BitVec.eq_of_getLsbD_eq
  intro i hi
  simp only [getLsbD_statusWord, reservedOf, rkvOf, estickyOf, ecodeOf, BitVec.getLsbD_extractLsb']
  by_cases h4 : i < 4
  · simp [h4]
  · by_cases h5 : i = 4
    · simp [h5]
    · by_cases h6 : i = 5
      · simp [h6]
      · have h7 : i - 6 < 10 := by omega
        have h8 : 6 + (i - 6) = i := by omega
        simp [h4, h5, h6, h7, h8]

/-- Two STATUS words with equal fields are equal. -/
theorem status_ext {w w' : Word} (h1 : reservedOf w = reservedOf w') (h2 : rkvOf w = rkvOf w')
    (h3 : estickyOf w = estickyOf w') (h4 : ecodeOf w = ecodeOf w') : w = w' := by
  rw [← statusWord_fields w, ← statusWord_fields w', h1, h2, h3, h4]

@[simp] theorem ecodeOf_setEcode : ecodeOf (setEcode w c) = c := by simp [setEcode]
@[simp] theorem estickyOf_setEcode : estickyOf (setEcode w c) = estickyOf w := by simp [setEcode]
@[simp] theorem rkvOf_setEcode : rkvOf (setEcode w c) = rkvOf w := by simp [setEcode]
@[simp] theorem reservedOf_setEcode : reservedOf (setEcode w c) = reservedOf w := by simp [setEcode]

@[simp] theorem ecodeOf_setEsticky : ecodeOf (setEsticky w b) = ecodeOf w := by simp [setEsticky]
@[simp] theorem estickyOf_setEsticky : estickyOf (setEsticky w b) = b := by simp [setEsticky]
@[simp] theorem rkvOf_setEsticky : rkvOf (setEsticky w b) = rkvOf w := by simp [setEsticky]
@[simp] theorem reservedOf_setEsticky : reservedOf (setEsticky w b) = reservedOf w := by simp [setEsticky]

@[simp] theorem ecodeOf_setRkv : ecodeOf (setRkv w b) = ecodeOf w := by simp [setRkv]
@[simp] theorem estickyOf_setRkv : estickyOf (setRkv w b) = estickyOf w := by simp [setRkv]
@[simp] theorem rkvOf_setRkv : rkvOf (setRkv w b) = b := by simp [setRkv]
@[simp] theorem reservedOf_setRkv : reservedOf (setRkv w b) = reservedOf w := by simp [setRkv]

@[simp] theorem setEcode_setEcode (c' : BitVec 4) : setEcode (setEcode w c) c' = setEcode w c' := by simp [setEcode]

end Fields

end Sys2Proof.Machine
end

