-- ==== Sys2Proof/Laws/Memory.lean ====
section
/-! SUPPORT. The byte stores: what a read gives, what a write sets and keeps, and what the loops of the two modes leave
in CPH. -/
namespace Sys2Proof.Machine

@[simp] theorem memRead_length (msg : ByteSeq) (addr n : Nat) : (memRead msg addr n).length = n := by simp [memRead]

@[simp] theorem messageBlock_length (msg : ByteSeq) (i : Nat) : (messageBlock msg i).length = 64 := by
  simp [messageBlock]

@[simp] theorem blockNumbers_length (msg : ByteSeq) : (blockNumbers msg).length = nblocks msg := by simp [blockNumbers]

/-- How long a store is after a write. -/
theorem memWrite_length (cph v : ByteSeq) (addr : Nat) :
    (memWrite cph addr v).length = max cph.length (addr + v.length) := by
  simp [memWrite]; omega

/-- A write, byte by byte: its own bytes set, every other byte of the store kept, a gap zero (R34). -/
theorem memWrite_getD (cph v : ByteSeq) (addr a : Nat) :
    (memWrite cph addr v).getD a 0 =
      if addr ≤ a ∧ a < addr + v.length then v.getD (a - addr) 0 else cph.getD a 0 := by
  simp only [List.getD_eq_getElem?_getD, memWrite, List.append_assoc, List.getElem?_append, List.getElem?_take,
    List.getElem?_drop, List.getElem?_replicate, List.length_take, List.length_replicate]
  by_cases h1 : a < addr
  · rw [if_neg (by omega : ¬ (addr ≤ a ∧ a < addr + v.length))]
    by_cases h2 : a < cph.length
    · rw [if_pos (by omega : a < min addr cph.length), if_pos h1]
    · rw [if_neg (by omega : ¬ a < min addr cph.length), if_pos (by omega), if_pos (by omega)]
      rw [List.getElem?_eq_none (by omega : cph.length ≤ a)]; rfl
  · rw [if_neg (by omega : ¬ a < min addr cph.length), if_neg (by omega)]
    have hidx : a - min addr cph.length - (addr - cph.length) = a - addr := by omega
    rw [hidx]
    by_cases h3 : a - addr < v.length
    · rw [if_pos h3, if_pos (by omega)]
    · rw [if_neg h3, if_neg (by omega)]
      congr 2
      omega

/-- Two stores of one length with the same bytes are equal. -/
theorem bytes_ext {B B' : ByteSeq} (hl : B.length = B'.length) (h : ∀ a, a < B.length → B.getD a 0 = B'.getD a 0) :
    B = B' := by
  apply List.ext_getElem hl
  intro a h1 h2
  have := h a h1
  rwa [List.getD_eq_getElem _ _ h1, List.getD_eq_getElem _ _ h2] at this

/-! ### Writing whole blocks -/

section Blocks
variable (f : Nat → ByteSeq)

/-- Block `f i` written at byte address `8·(i − 1)`, for the listed block numbers in order. -/
def writeBlocks (cph : ByteSeq) (idx : List Nat) : ByteSeq :=
  idx.foldl (fun cph i => memWrite cph (8 * (i - 1)) (f i)) cph

theorem ecbWrites_eq (ks : List BitSeq) (msg cph : ByteSeq) (idx : List Nat) :
    ecbWrites ks msg cph idx = writeBlocks (fun i => bytesOfBits (desBlock ks (messageBlock msg i))) cph idx := rfl

variable (hf : ∀ i, (f i).length = 8)
include hf

/-- Each byte after the writes: that of the block written there, or the byte before. -/
theorem writeBlocks_getD (cph : ByteSeq) (idx : List Nat) (hpos : ∀ i ∈ idx, 1 ≤ i) (a : Nat) :
    (writeBlocks f cph idx).getD a 0 = if a / 8 + 1 ∈ idx then (f (a / 8 + 1)).getD (a % 8) 0 else cph.getD a 0 := by
  induction idx generalizing cph with
  | nil => simp [writeBlocks]
  | cons i idx ih =>
    have hi : 1 ≤ i := hpos i (by simp)
    have step := ih (memWrite cph (8 * (i - 1)) (f i)) (fun j hj => hpos j (by simp [hj]))
    rw [show writeBlocks f cph (i :: idx) = writeBlocks f (memWrite cph (8 * (i - 1)) (f i)) idx from rfl, step]
    by_cases hmem : a / 8 + 1 ∈ idx
    · simp [hmem]
    · rw [if_neg hmem, memWrite_getD, hf]
      by_cases heq : a / 8 + 1 = i
      · subst heq
        rw [if_pos (by omega), if_pos (by simp)]
        congr 1
        omega
      · rw [if_neg (by omega), if_neg (by simp [heq, hmem])]

/-- The store reaches to the end of every block written. -/
theorem writeBlocks_length (cph : ByteSeq) (idx : List Nat) (hpos : ∀ i ∈ idx, 1 ≤ i) :
    cph.length ≤ (writeBlocks f cph idx).length ∧ ∀ i ∈ idx, 8 * i ≤ (writeBlocks f cph idx).length := by
  induction idx generalizing cph with
  | nil => simp [writeBlocks]
  | cons i idx ih =>
    have hi : 1 ≤ i := hpos i (by simp)
    obtain ⟨h1, h2⟩ := ih (memWrite cph (8 * (i - 1)) (f i)) (fun j hj => hpos j (by simp [hj]))
    rw [memWrite_length, hf] at h1
    rw [show writeBlocks f cph (i :: idx) = writeBlocks f (memWrite cph (8 * (i - 1)) (f i)) idx from rfl]
    refine ⟨by omega, fun j hj => ?_⟩
    rcases List.mem_cons.mp hj with rfl | hj
    · omega
    · exact h2 j hj

/-- Blocks `a + 1` to `a + n` in order, byte by byte. -/
theorem flatMap_blocks_getD (n a j : Nat) (hj : j < 8 * n) :
    ((List.range' (a + 1) n).flatMap f).getD j 0 = (f (a + j / 8 + 1)).getD (j % 8) 0 := by
  induction n generalizing a j with
  | zero => omega
  | succ n ih =>
    rw [List.range'_succ, List.flatMap_cons]
    by_cases h : j < 8
    · rw [List.getD_append _ _ _ _ (by rw [hf]; exact h), Nat.div_eq_of_lt h, Nat.mod_eq_of_lt h]
    · rw [List.getD_append_right _ _ _ _ (by rw [hf]; omega), hf, ih (a + 1) (j - 8) (by omega),
        show a + 1 + (j - 8) / 8 + 1 = a + j / 8 + 1 by omega, show (j - 8) % 8 = j % 8 by omega]

theorem flatMap_blocks_length (idx : List Nat) : (idx.flatMap f).length = 8 * idx.length := by
  induction idx with
  | nil => rfl
  | cons i idx ih => simp [ih, hf]; omega

end Blocks

theorem blockNumbers_eq (msg : ByteSeq) : blockNumbers msg = List.range' 1 (nblocks msg) := by
  rw [blockNumbers, List.range_eq_range', List.range'_eq_map_range, List.range'_eq_map_range, List.map_map]
  apply List.map_congr_left
  intro i _
  simp [Nat.add_comm]

theorem mem_blockNumbers (msg : ByteSeq) (i : Nat) : i ∈ blockNumbers msg ↔ 1 ≤ i ∧ i ≤ nblocks msg := by
  rw [blockNumbers_eq, List.mem_range'_1]; omega

/-- Writing the message's blocks in any order gives CPH their concatenation in block order (R34, R108). -/
theorem writeBlocks_any_order (f : Nat → ByteSeq) (hf : ∀ i, (f i).length = 8) (msg cph : ByteSeq) (idx : List Nat)
    (hidx : ∀ i, i ∈ idx ↔ i ∈ blockNumbers msg) :
    (writeBlocks f cph idx).take (8 * nblocks msg) = (blockNumbers msg).flatMap f := by
  have hpos : ∀ i ∈ idx, 1 ≤ i := fun i hi => ((mem_blockNumbers msg i).mp ((hidx i).mp hi)).1
  have hlen : 8 * nblocks msg ≤ (writeBlocks f cph idx).length := by
    rcases Nat.eq_zero_or_pos (nblocks msg) with h | h
    · omega
    · exact (writeBlocks_length f hf cph idx hpos).2 _ ((hidx _).mpr ((mem_blockNumbers msg _).mpr ⟨h, le_rfl⟩))
  have hlen' : ((blockNumbers msg).flatMap f).length = 8 * nblocks msg := by
    rw [flatMap_blocks_length f hf, blockNumbers_length]
  apply bytes_ext
  · rw [List.length_take, hlen']; omega
  · intro a ha
    have ha' : a < 8 * nblocks msg := by rw [List.length_take] at ha; omega
    rw [List.getD_eq_getElem?_getD, List.getElem?_take, if_pos ha', ← List.getD_eq_getElem?_getD,
      writeBlocks_getD f hf cph idx hpos, if_pos ((hidx _).mpr ((mem_blockNumbers msg _).mpr (by omega))),
      blockNumbers_eq, flatMap_blocks_getD f hf (nblocks msg) 0 a ha']
    congr 2
    omega

theorem blockBytes_length (ks : List BitSeq) (P : BitSeq) : (bytesOfBits (desBlock ks P)).length = 8 :=
  bytesOfBits_length _ 8 (by simp)

/-! ### The CBC chain -/

/-- `C_i` of R109, `C_0` the IV. -/
def cbcChain (ks : List BitSeq) (msg : ByteSeq) (iv : BitSeq) : Nat → BitSeq
  | 0 => iv
  | i + 1 => desBlock ks (xorBits (messageBlock msg (i + 1)) (cbcChain ks msg iv i))

theorem cbcChain_length (ks : List BitSeq) (msg : ByteSeq) {iv : BitSeq} (h : iv.length = 64) (i : Nat) :
    (cbcChain ks msg iv i).length = 64 := by
  cases i with
  | zero => exact h
  | succ i => simp [cbcChain]

theorem cbcBlocks_eq (ks : List BitSeq) (msg : ByteSeq) (iv : BitSeq) (n a : Nat) :
    cbcBlocks ks (cbcChain ks msg iv a) ((List.range' (a + 1) n).map (messageBlock msg)) =
      (List.range' (a + 1) n).map (cbcChain ks msg iv) := by
  induction n generalizing a with
  | zero => rfl
  | succ n ih =>
    rw [List.range'_succ, List.map_cons, List.map_cons, cbcBlocks]
    exact congrArg _ (ih (a + 1))

theorem cbcWrites_eq (ks : List BitSeq) (msg : ByteSeq) (iv : BitSeq) (cph : ByteSeq) (n a : Nat) :
    cbcWrites ks msg (cbcChain ks msg iv a) cph (List.range' (a + 1) n) =
      writeBlocks (fun i => bytesOfBits (cbcChain ks msg iv i)) cph (List.range' (a + 1) n) := by
  induction n generalizing a cph with
  | zero => rfl
  | succ n ih =>
    rw [List.range'_succ, cbcWrites]
    exact ih _ (a + 1)

/-- What ENCCBC leaves in CPH: the chain's blocks in order (R112). -/
theorem cbcWrites_take (ks : List BitSeq) (msg cph : ByteSeq) {iv : BitSeq} (h : iv.length = 64) :
    (cbcWrites ks msg iv cph (blockNumbers msg)).take (8 * nblocks msg) =
      (blockNumbers msg).flatMap fun i => bytesOfBits (cbcChain ks msg iv i) := by
  have := cbcWrites_eq ks msg iv cph (nblocks msg) 0
  rw [cbcChain, Nat.zero_add, ← blockNumbers_eq] at this
  rw [this]
  exact writeBlocks_any_order _ (fun i => bytesOfBits_length _ 8 (by simp [cbcChain_length ks msg h])) msg cph _
    fun _ => Iff.rfl

/-- What ENCECB leaves in CPH (R111). -/
theorem ecbWrites_take (ks : List BitSeq) (msg cph : ByteSeq) :
    (ecbWrites ks msg cph (blockNumbers msg)).take (8 * nblocks msg) =
      (blockNumbers msg).flatMap fun i => bytesOfBits (desBlock ks (messageBlock msg i)) := by
  rw [ecbWrites_eq]
  exact writeBlocks_any_order _ (fun i => blockBytes_length ks _) msg cph _ fun _ => Iff.rfl

end Sys2Proof.Machine
end

