-- ==== Sys2Proof/Laws/State.lean ====
section
/-! SUPPORT. One lemma per field of State and per shared update: what the update does to that field. -/
namespace Sys2Proof.Machine

section Fields
variable (s : State)

@[simp] theorem succeed_a : (succeed s).a = s.a := rfl
@[simp] theorem succeed_k : (succeed s).k = s.k := rfl
@[simp] theorem succeed_v : (succeed s).v = s.v := rfl
@[simp] theorem succeed_msg : (succeed s).msg = s.msg := rfl
@[simp] theorem succeed_q : (succeed s).q = s.q := rfl
@[simp] theorem succeed_cph : (succeed s).cph = s.cph := rfl
@[simp] theorem succeed_rk : (succeed s).rk = s.rk := rfl
@[simp] theorem succeed_status : (succeed s).status = setEcode s.status 0 := rfl
@[simp] theorem succeed_port : (succeed s).port = s.port := rfl
@[simp] theorem succeed_moves : (succeed s).moves = s.moves := rfl
@[simp] theorem succeed_readout : (succeed s).readout = s.readout := rfl

@[simp] theorem emptyResult_a (store : ResultStore) : (emptyResult store s).a = s.a := by cases store <;> rfl
@[simp] theorem emptyResult_k (store : ResultStore) : (emptyResult store s).k = s.k := by cases store <;> rfl
@[simp] theorem emptyResult_v (store : ResultStore) : (emptyResult store s).v = s.v := by cases store <;> rfl
@[simp] theorem emptyResult_msg (store : ResultStore) : (emptyResult store s).msg = s.msg := by cases store <;> rfl
@[simp] theorem emptyResult_q (store : ResultStore) : (emptyResult store s).q = if store = .q then [] else s.q := by cases store <;> rfl
@[simp] theorem emptyResult_cph (store : ResultStore) : (emptyResult store s).cph = if store = .cph then [] else s.cph := by cases store <;> rfl
@[simp] theorem emptyResult_rk (store : ResultStore) : (emptyResult store s).rk = s.rk := by cases store <;> rfl
@[simp] theorem emptyResult_port (store : ResultStore) : (emptyResult store s).port = s.port := by cases store <;> rfl
@[simp] theorem emptyResult_moves (store : ResultStore) : (emptyResult store s).moves = s.moves := by cases store <;> rfl
@[simp] theorem emptyResult_readout (store : ResultStore) : (emptyResult store s).readout = s.readout := by cases store <;> rfl
@[simp] theorem emptyResult_status (store : ResultStore) : (emptyResult store s).status = s.status := by cases store <;> rfl

@[simp] theorem raise_a (err : EngineError) (store : ResultStore) : (raise err store s).a = s.a := by simp [raise]
@[simp] theorem raise_k (err : EngineError) (store : ResultStore) : (raise err store s).k = s.k := by simp [raise]
@[simp] theorem raise_v (err : EngineError) (store : ResultStore) : (raise err store s).v = s.v := by simp [raise]
@[simp] theorem raise_msg (err : EngineError) (store : ResultStore) : (raise err store s).msg = s.msg := by simp [raise]
@[simp] theorem raise_q (err : EngineError) (store : ResultStore) : (raise err store s).q = if store = .q then [] else s.q := by simp [raise]
@[simp] theorem raise_cph (err : EngineError) (store : ResultStore) : (raise err store s).cph = if store = .cph then [] else s.cph := by simp [raise]
@[simp] theorem raise_rk (err : EngineError) (store : ResultStore) : (raise err store s).rk = s.rk := by simp [raise]
@[simp] theorem raise_status (err : EngineError) (store : ResultStore) : (raise err store s).status = setEsticky (setEcode s.status err.code) true := by simp [raise]
@[simp] theorem raise_port (err : EngineError) (store : ResultStore) : (raise err store s).port = s.port := by simp [raise]
@[simp] theorem raise_moves (err : EngineError) (store : ResultStore) : (raise err store s).moves = s.moves := by simp [raise]
@[simp] theorem raise_readout (err : EngineError) (store : ResultStore) : (raise err store s).readout = s.readout := by simp [raise]

@[simp] theorem writeRoundKeys_a (ks : List BitSeq) : (writeRoundKeys ks s).a = s.a := rfl
@[simp] theorem writeRoundKeys_k (ks : List BitSeq) : (writeRoundKeys ks s).k = s.k := rfl
@[simp] theorem writeRoundKeys_v (ks : List BitSeq) : (writeRoundKeys ks s).v = s.v := rfl
@[simp] theorem writeRoundKeys_msg (ks : List BitSeq) : (writeRoundKeys ks s).msg = s.msg := rfl
@[simp] theorem writeRoundKeys_q (ks : List BitSeq) : (writeRoundKeys ks s).q = s.q := rfl
@[simp] theorem writeRoundKeys_cph (ks : List BitSeq) : (writeRoundKeys ks s).cph = s.cph := rfl
@[simp] theorem writeRoundKeys_rk (ks : List BitSeq) : (writeRoundKeys ks s).rk = roundKeyFile ks := rfl
@[simp] theorem writeRoundKeys_status (ks : List BitSeq) : (writeRoundKeys ks s).status = setRkv s.status true := rfl
@[simp] theorem writeRoundKeys_port (ks : List BitSeq) : (writeRoundKeys ks s).port = s.port := rfl
@[simp] theorem writeRoundKeys_moves (ks : List BitSeq) : (writeRoundKeys ks s).moves = s.moves := rfl
@[simp] theorem writeRoundKeys_readout (ks : List BitSeq) : (writeRoundKeys ks s).readout = s.readout := rfl

@[simp] theorem clearRoundKeys_a : (clearRoundKeys s).a = s.a := rfl
@[simp] theorem clearRoundKeys_k : (clearRoundKeys s).k = s.k := rfl
@[simp] theorem clearRoundKeys_v : (clearRoundKeys s).v = s.v := rfl
@[simp] theorem clearRoundKeys_msg : (clearRoundKeys s).msg = s.msg := rfl
@[simp] theorem clearRoundKeys_q : (clearRoundKeys s).q = s.q := rfl
@[simp] theorem clearRoundKeys_cph : (clearRoundKeys s).cph = s.cph := rfl
@[simp] theorem clearRoundKeys_rk : (clearRoundKeys s).rk = Vector.replicate 16 0 := rfl
@[simp] theorem clearRoundKeys_status : (clearRoundKeys s).status = setRkv s.status false := rfl
@[simp] theorem clearRoundKeys_port : (clearRoundKeys s).port = s.port := rfl
@[simp] theorem clearRoundKeys_moves : (clearRoundKeys s).moves = s.moves := rfl
@[simp] theorem clearRoundKeys_readout : (clearRoundKeys s).readout = s.readout := rfl

@[simp] theorem consume_a (used : Nat) : (consume used s).a = s.a := rfl
@[simp] theorem consume_k (used : Nat) : (consume used s).k = s.k := rfl
@[simp] theorem consume_v (used : Nat) : (consume used s).v = s.v := rfl
@[simp] theorem consume_msg (used : Nat) : (consume used s).msg = s.msg := rfl
@[simp] theorem consume_q (used : Nat) : (consume used s).q = s.q := rfl
@[simp] theorem consume_cph (used : Nat) : (consume used s).cph = s.cph := rfl
@[simp] theorem consume_rk (used : Nat) : (consume used s).rk = s.rk := rfl
@[simp] theorem consume_status (used : Nat) : (consume used s).status = s.status := rfl
@[simp] theorem consume_port (used : Nat) : (consume used s).port = s.port.drop used := rfl
@[simp] theorem consume_moves (used : Nat) : (consume used s).moves = s.moves := rfl
@[simp] theorem consume_readout (used : Nat) : (consume used s).readout = s.readout := rfl

@[simp] theorem ecode_eq (e : Engine) : e.ecode = ecodeOf e.status := rfl
@[simp] theorem esticky_eq (e : Engine) : e.esticky = estickyOf e.status := rfl
@[simp] theorem rkv_eq (e : Engine) : e.rkv = rkvOf e.status := rfl

end Fields

end Sys2Proof.Machine
end

