-- ==== Sys2Proof/Laws/Ops.lean ====
section
/-! SUPPORT. Each shared operation and each command once: what it can do, for later proofs to cite instead of
unfolding it. -/
namespace Sys2Proof.Machine

/-! ### The round-key file -/

theorem rkAt_of_get (e : Engine) {r : Nat} (h1 : 1 ≤ r) (h2 : r ≤ 16) :
    e.rkAt r = e.rk[r - 1]'(by omega) := by
  simp only [Engine.rkAt]
  rw [List.getD_eq_getElem _ _ (by simp; omega)]
  simp

/-- The round-key file after it is written with sixteen keys of 48 bits (R20). -/
theorem writeRoundKeys_rkBits (ks : List BitSeq) (s : State) {r : Nat} (h1 : 1 ≤ r) (h2 : r ≤ 16)
    (hw : (ks.getD (r - 1) []).length = 48) : (writeRoundKeys ks s).rkBits r = ks.getD (r - 1) [] := by
  rw [Engine.rkBits, rkAt_of_get _ h1 h2]
  simp only [writeRoundKeys, roundKeyFile, Vector.getElem_ofFn]
  exact bitsOfRoundKey_roundKeyOfBits _ hw

/-- The round-key file after it is cleared (R20). -/
theorem clearRoundKeys_rkBits (s : State) {r : Nat} (h1 : 1 ≤ r) (h2 : r ≤ 16) :
    (clearRoundKeys s).rkBits r = zeros 48 := by
  rw [Engine.rkBits, rkAt_of_get _ h1 h2]
  simp [clearRoundKeys]

theorem reset_rkBits {r : Nat} (h1 : 1 ≤ r) (h2 : r ≤ 16) : Engine.reset.rkBits r = zeros 48 := by
  rw [Engine.rkBits, rkAt_of_get _ h1 h2]
  simp [Engine.reset]

/-- `rkBits` reads the round-key file only. -/
theorem rkBits_congr {e e' : Engine} (h : e.rk = e'.rk) (r : Nat) : e.rkBits r = e'.rkBits r := by
  simp [Engine.rkBits, Engine.rkAt, h]

/-! ### What each operation leaves of the engine -/

theorem succeed_toEngine (s : State) : (succeed s).toEngine = { s.toEngine with status := (succeed s).status } := rfl

theorem raise_nothing_toEngine (err : EngineError) (s : State) :
    (raise err .nothing s).toEngine = { s.toEngine with status := (raise err .nothing s).status } := rfl

theorem raise_q_toEngine (err : EngineError) (s : State) :
    (raise err .q s).toEngine = { s.toEngine with q := [], status := (raise err .q s).status } := rfl

theorem raise_cph_toEngine (err : EngineError) (s : State) :
    (raise err .cph s).toEngine = { s.toEngine with cph := [], status := (raise err .cph s).status } := rfl

/-! ### What each command can answer -/

theorem execLda_cases (S : BitSeq) (s : State) :
    (Config.OPCAP < S.length ∧ execLda S s = .next (raise .illegalCommand .nothing s)) ∨
    (S.length ≤ Config.OPCAP ∧ execLda S s = .next (succeed { s with a := S })) := by
  by_cases h : Config.OPCAP < S.length
  · exact .inl ⟨h, if_pos h⟩
  · exact .inr ⟨by omega, if_neg h⟩

theorem execLdk_cases (S : BitSeq) (s : State) :
    (Config.OPCAP < S.length ∧ execLdk S s = .next (raise .illegalCommand .nothing s)) ∨
    (S.length ≤ Config.OPCAP ∧ execLdk S s = .next (succeed (clearRoundKeys { s with k := S }))) := by
  by_cases h : Config.OPCAP < S.length
  · exact .inl ⟨h, if_pos h⟩
  · exact .inr ⟨by omega, if_neg h⟩

theorem execLdv_cases (S : BitSeq) (s : State) :
    (Config.OPCAP < S.length ∧ execLdv S s = .next (raise .illegalCommand .nothing s)) ∨
    (S.length ≤ Config.OPCAP ∧ execLdv S s = .next (succeed { s with v := S })) := by
  by_cases h : Config.OPCAP < S.length
  · exact .inl ⟨h, if_pos h⟩
  · exact .inr ⟨by omega, if_neg h⟩

theorem execLdm_cases (P : ByteSeq) (s : State) :
    (Config.MSGCAP < P.length ∧ execLdm P s = .next (raise .illegalCommand .nothing s)) ∨
    (P.length ≤ Config.MSGCAP ∧ execLdm P s = .next (succeed { s with msg := P })) := by
  by_cases h : P.length ≤ Config.MSGCAP
  · exact .inr ⟨h, if_pos h⟩
  · exact .inl ⟨by omega, if_neg h⟩

/-- A PERM command, given its table's bound (R58, R67 to R72). -/
theorem permCommand_cases {T : PermTable} {bound : Nat} (h1 : ∀ p ∈ T, 1 ≤ p ∧ p ≤ bound) (h2 : bound ∈ T)
    (s : State) :
    (s.a.length < bound ∧ permCommand T s = .next (raise .invalidLength .q s)) ∨
    (bound ≤ s.a.length ∧ permCommand T s = .next (succeed { s with q := select s.a T })) := by
  unfold permCommand
  rw [permute_by_bound h1 h2]
  by_cases h : bound ≤ s.a.length
  · exact .inr ⟨h, by rw [if_pos h]⟩
  · exact .inl ⟨by omega, by rw [if_neg h]⟩

theorem execKsched_cases (s : State) :
    (s.k.length ≠ 64 ∧ execKsched s = .next (raise .invalidKeyLength .nothing s)) ∨
    (s.k.length = 64 ∧ execKsched s = .next (succeed (writeRoundKeys (roundKeys s.k) s))) := by
  by_cases h : s.k.length = 64
  · exact .inr ⟨h, if_neg (not_not.mpr h)⟩
  · exact .inl ⟨h, if_pos h⟩

theorem execFrnd_cases (r : Nat) (s : State) :
    (¬ (1 ≤ r ∧ r ≤ 16) ∧ execFrnd r s = .next (raise .illegalCommand .nothing s)) ∨
    ((1 ≤ r ∧ r ≤ 16) ∧ s.a.length ≠ 32 ∧ execFrnd r s = .next (raise .invalidBlockLength .q s)) ∨
    ((1 ≤ r ∧ r ≤ 16) ∧ s.a.length = 32 ∧ s.rkv = false ∧ execFrnd r s = .next (raise .roundKeysNotReady .q s)) ∨
    ((1 ≤ r ∧ r ≤ 16) ∧ s.a.length = 32 ∧ s.rkv = true ∧
      execFrnd r s = .next (succeed { s with q := mangler s.a (s.rkBits r) })) := by
  by_cases h : 1 ≤ r ∧ r ≤ 16
  · by_cases ha : s.a.length = 32
    · cases hr : s.rkv
      · exact .inr (.inr (.inl ⟨h, ha, rfl, by simp only [execFrnd, h, ha, hr]; simp⟩))
      · exact .inr (.inr (.inr ⟨h, ha, rfl, by simp only [execFrnd, h, ha, hr]; simp⟩))
    · exact .inr (.inl ⟨h, ha, by simp [execFrnd, h, ha]⟩)
  · exact .inl ⟨h, if_pos h⟩

theorem execEncblk_cases (s : State) :
    (s.a.length ≠ 64 ∧ execEncblk s = .next (raise .invalidBlockLength .q s)) ∨
    (s.a.length = 64 ∧ s.k.length ≠ 64 ∧ execEncblk s = .next (raise .invalidKeyLength .q s)) ∨
    (s.a.length = 64 ∧ s.k.length = 64 ∧ execEncblk s =
      .next (succeed (writeRoundKeys (roundKeys s.k) { s with q := desBlock (roundKeys s.k) s.a }))) := by
  by_cases ha : s.a.length = 64
  · by_cases hk : s.k.length = 64
    · exact .inr (.inr ⟨ha, hk, by simp [execEncblk, ha, hk]⟩)
    · exact .inr (.inl ⟨ha, hk, by simp [execEncblk, ha, hk]⟩)
  · exact .inl ⟨ha, if_pos ha⟩

/-- The ciphertext of R107 and R109 on operands of the right lengths. -/
def ecbBytes (msg : ByteSeq) (key : BitSeq) : ByteSeq :=
  (blockNumbers msg).flatMap fun i => bytesOfBits (desBlock (roundKeys key) (messageBlock msg i))

/-- The same for CBC, by the chain of R109. -/
def cbcBytes (msg : ByteSeq) (key iv : BitSeq) : ByteSeq :=
  (blockNumbers msg).flatMap fun i => bytesOfBits (cbcChain (roundKeys key) msg iv i)

theorem ecb_ok {msg : ByteSeq} {key : BitSeq} (hm : 8 ≤ msg.length) (hk : key.length = 64) :
    ecb msg key = .ok (ecbBytes msg key) := by
  simp [ecb, ecbBytes, hk, show ¬ msg.length < 8 by omega]

theorem cbc_ok {msg : ByteSeq} {key iv : BitSeq} (hm : 8 ≤ msg.length) (hk : key.length = 64) (hv : iv.length = 64) :
    cbc msg key iv = .ok (cbcBytes msg key iv) := by
  have h := cbcBlocks_eq (roundKeys key) msg iv (nblocks msg) 0
  rw [cbcChain, Nat.zero_add, ← blockNumbers_eq] at h
  simp [cbc, cbcBytes, hk, hv, show ¬ msg.length < 8 by omega, h, List.flatMap_map]

theorem ecbBytes_length (msg : ByteSeq) (key : BitSeq) : (ecbBytes msg key).length = 8 * nblocks msg := by
  rw [ecbBytes, flatMap_blocks_length _ (fun i => blockBytes_length _ _), blockNumbers_length]

theorem cbcBytes_length (msg : ByteSeq) (key : BitSeq) {iv : BitSeq} (hv : iv.length = 64) :
    (cbcBytes msg key iv).length = 8 * nblocks msg := by
  rw [cbcBytes, flatMap_blocks_length _ (fun i => bytesOfBits_length _ 8 (by simp [cbcChain_length _ _ hv])),
    blockNumbers_length]

theorem execEncecb_cases (s : State) :
    (s.msg.length < 8 ∧ execEncecb s = .next (raise .messageTooShort .cph s)) ∨
    (8 ≤ s.msg.length ∧ s.k.length ≠ 64 ∧ execEncecb s = .next (raise .invalidKeyLength .cph s)) ∨
    (8 ≤ s.msg.length ∧ s.k.length = 64 ∧ execEncecb s =
      .next (succeed (writeRoundKeys (roundKeys s.k) { s with cph := ecbBytes s.msg s.k }))) := by
  by_cases hm : s.msg.length < 8
  · exact .inl ⟨hm, if_pos hm⟩
  · by_cases hk : s.k.length = 64
    · refine .inr (.inr ⟨by omega, hk, ?_⟩)
      simp only [execEncecb, hm, hk, ecbWrites_take]
      simp [ecbBytes]
    · exact .inr (.inl ⟨by omega, hk, by simp [execEncecb, hm, hk]⟩)

theorem execEnccbc_cases (s : State) :
    (s.msg.length < 8 ∧ execEnccbc s = .next (raise .messageTooShort .cph s)) ∨
    (8 ≤ s.msg.length ∧ s.k.length ≠ 64 ∧ execEnccbc s = .next (raise .invalidKeyLength .cph s)) ∨
    (8 ≤ s.msg.length ∧ s.k.length = 64 ∧ s.v.length ≠ 64 ∧
      execEnccbc s = .next (raise .invalidIVLength .cph s)) ∨
    (8 ≤ s.msg.length ∧ s.k.length = 64 ∧ s.v.length = 64 ∧ execEnccbc s =
      .next (succeed (writeRoundKeys (roundKeys s.k) { s with cph := cbcBytes s.msg s.k s.v }))) := by
  by_cases hm : s.msg.length < 8
  · exact .inl ⟨hm, if_pos hm⟩
  · by_cases hk : s.k.length = 64
    · by_cases hv : s.v.length = 64
      · refine .inr (.inr (.inr ⟨by omega, hk, hv, ?_⟩))
        simp only [execEnccbc, hm, hk, hv, cbcWrites_take _ _ _ hv]
        simp [cbcBytes]
      · exact .inr (.inr (.inl ⟨by omega, hk, hv, by simp [execEnccbc, hm, hk, hv]⟩))
    · exact .inr (.inl ⟨by omega, hk, by simp [execEnccbc, hm, hk]⟩)

/-- What a host's turn can do (R143). -/
theorem hostTurn_cases (s : State) :
    (s.moves = [] ∧ hostTurn s = s) ∨
    (∃ B rest, s.moves = .present B :: rest ∧ hostTurn s = { s with port := s.port ++ B, moves := rest }) ∨
    (∃ n rest, s.moves = .readRegister n :: rest ∧
      hostTurn s = { s with moves := rest, readout := some (s.readRegister n) }) ∨
    (∃ rest, s.moves = .reset :: rest ∧
      hostTurn s = { s with toEngine := Engine.reset, port := [], moves := rest }) := by
  rcases h : s.moves with _ | ⟨move, rest⟩
  · exact .inl ⟨rfl, by simp [hostTurn, h]⟩
  · cases move with
    | present B => exact .inr (.inl ⟨B, rest, rfl, by simp [hostTurn, h, applyMove]⟩)
    | readRegister n => exact .inr (.inr (.inl ⟨n, rest, rfl, by simp [hostTurn, h, applyMove]⟩))
    | reset => exact .inr (.inr (.inr ⟨rest, rfl, by simp [hostTurn, h, applyMove]⟩))

/-! ### The memory's form -/

theorem memory_wf_iff (e : Engine) :
    Memory.wf e = true ↔
      e.msg.length ≤ Config.MSGCAP ∧ e.cph.length % 8 = 0 ∧ e.cph.length ≤ Config.CPHCAP := by
  simp [Memory.wf, and_assoc]

theorem reset_memory_wf : Memory.wf Engine.reset = true := by
  rw [memory_wf_iff]; simp [Engine.reset]

/-- Loading a message keeps the form. -/
theorem load_memory_wf {e : Engine} (h : Memory.wf e = true) {P : ByteSeq} (hP : P.length ≤ Config.MSGCAP) :
    Memory.wf { e with msg := P } = true := by
  rw [memory_wf_iff] at h ⊢
  exact ⟨hP, h.2⟩

/-- Emptying CPH keeps the form. -/
theorem emptyCph_memory_wf {e : Engine} (h : Memory.wf e = true) : Memory.wf { e with cph := [] } = true := by
  rw [memory_wf_iff] at h ⊢
  exact ⟨h.1, by simp, by simp⟩

/-- Writing the ciphertext of the message in MSG keeps the form. -/
theorem ciphertext_memory_wf {e : Engine} (h : Memory.wf e = true) {C : ByteSeq} (hC : C.length = 8 * nblocks e.msg) :
    Memory.wf { e with cph := C } = true := by
  rw [memory_wf_iff] at h ⊢
  refine ⟨h.1, by simp [hC], ?_⟩
  have := h.1
  simp only [hC, nblocks, ceilDiv8, Config.CPHCAP]
  omega

/-- The form depends on the two byte stores only. -/
theorem memory_wf_congr {e e' : Engine} (h1 : e.msg = e'.msg) (h2 : e.cph = e'.cph) : Memory.wf e = Memory.wf e' := by
  simp [Memory.wf, h1, h2]

end Sys2Proof.Machine
end

