-- ==== Sys2Proof/Laws/Invariant.lean ====
section
/-! SUPPORT. The two ways a command ends, against the invariants of R26. -/
namespace Sys2Proof.Machine

/-- Raising an error keeps the invariants, whatever the error and the store it empties. -/
theorem raise_inv {s : State} (h : s.toEngine.Inv) (err : EngineError) (store : ResultStore) :
    (raise err store s).toEngine.Inv where
  aCap := by simpa using h.aCap
  kCap := by simpa using h.kCap
  vCap := by simpa using h.vCap
  memory := by
    have hm := h.memory
    rw [memory_wf_iff] at hm ⊢
    cases store <;> simp [hm]
  qLengths := by
    have hq := h.qLengths
    cases store <;> simp at hq ⊢ <;> exact hq
  keysValid := by
    have hk := h.keysValid
    intro hr
    simp at hr hk ⊢
    refine ⟨(hk hr).1, fun r h1 h2 => ?_⟩
    rw [rkBits_congr (e' := s.toEngine) (by simp) r]
    exact (hk hr).2 r h1 h2
  keysCleared := by
    have hk := h.keysCleared
    intro hr r h1 h2
    simp at hr hk
    rw [rkBits_congr (e' := s.toEngine) (by simp) r]
    exact hk hr r h1 h2
  ecodeRange := by simp; cases err <;> decide
  stickySet := by simp
  reservedZero := by simpa using h.reservedZero

/-- Ending a command well keeps the invariants when what it wrote meets those on stores and round keys. -/
theorem succeed_inv {s : State} (ha : s.a.length ≤ Config.OPCAP) (hk : s.k.length ≤ Config.OPCAP)
    (hv : s.v.length ≤ Config.OPCAP) (hm : Memory.wf s.toEngine = true) (hq : s.q.length ∈ [0, 32, 48, 56, 64])
    (h1 : s.rkv = true → s.k.length = 64 ∧ ∀ r, 1 ≤ r → r ≤ 16 → s.rkBits r = roundKey s.k r)
    (h0 : s.rkv = false → ∀ r, 1 ≤ r → r ≤ 16 → s.rkBits r = zeros 48) (hr : reservedOf s.status = 0) :
    (succeed s).toEngine.Inv where
  aCap := ha
  kCap := hk
  vCap := hv
  memory := hm
  qLengths := hq
  keysValid := fun h => h1 (by simpa using h)
  keysCleared := fun h => h0 (by simpa using h)
  ecodeRange := by simp
  stickySet := by simp
  reservedZero := by simpa using hr

/-- The file written with a key's round keys holds `KS(key)[r]` in `RK[r]` (R20). -/
theorem writeRoundKeys_roundKey {s : State} (key : BitSeq) {r : Nat} (h1 : 1 ≤ r) (h2 : r ≤ 16) :
    (writeRoundKeys (roundKeys key) s).rkBits r = roundKey key r :=
  writeRoundKeys_rkBits _ _ h1 h2 (roundKeys_getD_width key (by omega))

end Sys2Proof.Machine
end

