-- ==== Sys2Proof/Laws/PerInstr.lean ====
section
/-! SUPPORT. Statements for all commands, one lemma a constructor. -/
namespace Sys2Proof.Laws.OpcodeRow

/-- The command word of a well-formed command selects the row of the opcode map that bears its mnemonic, and no other
(R44). -/
def Statement (i : Instr) : Prop :=
  i.WellFormed → (opcodeTable.filter fun row => row.selects i.commandWord).map (·.mnemonic) = [i.mnemonic]

theorem nop : Statement .nop := fun _ => by decide
theorem clr : Statement .clr := fun _ => by decide
theorem lda (S : BitSeq) : Statement (.lda S) := fun _ => by
  show (opcodeTable.filter fun row => row.selects 0x1000).map (·.mnemonic) = ["LDA"]
  decide
theorem ldk (S : BitSeq) : Statement (.ldk S) := fun _ => by
  show (opcodeTable.filter fun row => row.selects 0x1100).map (·.mnemonic) = ["LDK"]
  decide
theorem ldv (S : BitSeq) : Statement (.ldv S) := fun _ => by
  show (opcodeTable.filter fun row => row.selects 0x1200).map (·.mnemonic) = ["LDV"]
  decide
theorem ldm (P : ByteSeq) : Statement (.ldm P) := fun _ => by
  show (opcodeTable.filter fun row => row.selects 0x1300).map (·.mnemonic) = ["LDM"]
  decide
theorem permIp : Statement .permIp := fun _ => by decide
theorem permFp : Statement .permFp := fun _ => by decide
theorem permPc1 : Statement .permPc1 := fun _ => by decide
theorem permPc2 : Statement .permPc2 := fun _ => by decide
theorem permE : Statement .permE := fun _ => by decide
theorem permP : Statement .permP := fun _ => by decide
theorem ksched : Statement .ksched := fun _ => by decide
theorem frnd (r : Nat) : Statement (.frnd r) := by
  intro h
  obtain ⟨h1, h2⟩ : 1 ≤ r ∧ r ≤ 16 := of_decide_eq_true h
  interval_cases r <;> decide
theorem encblk : Statement .encblk := fun _ => by decide
theorem encecb : Statement .encecb := fun _ => by decide
theorem enccbc : Statement .enccbc := fun _ => by decide

end Sys2Proof.Laws.OpcodeRow
end

