-- ==== Sys2Proof/Laws/Rounds.lean ====
section
/-! SUPPORT. Rotations, XOR and the two round loops, each said once: the key schedule's halves after `r` rounds, and a
Feistel round undone. -/
namespace Sys2Proof.Machine

/-- `rotl(S, n)[i] = S[(i + n) mod len(S)]` (R11). -/
theorem rotl_getElem? (S : BitSeq) (n i : Nat) (h : i < S.length) : (rotl S n)[i]? = S[(i + n) % S.length]? := by
  have hn := Nat.mod_lt n (by omega : 0 < S.length)
  have hmod : (i + n) % S.length = (i + n % S.length) % S.length := by simp
  unfold rotl
  rw [List.getElem?_append, hmod]
  simp only [List.length_drop, List.getElem?_drop, List.getElem?_take]
  generalize n % S.length = m at *
  split
  · rw [Nat.mod_eq_of_lt (by omega)]; congr 1; omega
  · rw [if_pos (by omega)]
    congr 1
    rw [Nat.mod_eq_sub_mod (by omega), Nat.mod_eq_of_lt (by omega)]; omega

/-! ### XOR goes through selection, slices and rotations -/

theorem xorBits_append {a b c d : BitSeq} (h : a.length = b.length) :
    xorBits (a ++ c) (b ++ d) = xorBits a b ++ xorBits c d := List.zipWith_append h

theorem xorBits_slice (a b : BitSeq) (i j : Nat) : xorBits (slice a i j) (slice b i j) = slice (xorBits a b) i j := by
  simp [slice, xorBits, List.take_zipWith, List.drop_zipWith]

theorem xorBits_rotl {a b : BitSeq} (h : a.length = b.length) (n : Nat) :
    xorBits (rotl a n) (rotl b n) = rotl (xorBits a b) n := by
  unfold rotl
  rw [xorBits_append (by simp [h])]
  simp [h, xorBits, List.take_zipWith, List.drop_zipWith]

theorem xorBits_select {x y : BitSeq} (h : x.length = y.length) (T : PermTable)
    (hT : ∀ p ∈ T, 1 ≤ p ∧ p ≤ x.length) : xorBits (select x T) (select y T) = select (xorBits x y) T := by
  simp only [select]
  rw [xorBits.eq_1 (List.map _ _), List.zipWith_map, List.zipWith_self]
  apply List.map_congr_left
  intro p hp
  have h1 := hT p hp
  have h2 : p - 1 < x.length := by omega
  have h3 : p - 1 < y.length := by omega
  simp [bitAt, xorBits, h2, h3]

/-! ### The key schedule's rounds -/

/-- A half after `r` rotations of the listed amounts (R76). -/
def keyHalf (sh : List Nat) (C : BitSeq) : Nat → BitSeq
  | 0 => C
  | r + 1 => rotl (keyHalf sh C r) (sh.getD r 0)

theorem keyHalf_cons (n : Nat) (sh : List Nat) (C : BitSeq) (r : Nat) :
    keyHalf (n :: sh) C (r + 1) = keyHalf sh (rotl C n) r := by
  induction r with
  | zero => rfl
  | succ r ih => rw [keyHalf, ih, keyHalf]; rfl

theorem keyHalf_length (sh : List Nat) (C : BitSeq) (r : Nat) : (keyHalf sh C r).length = C.length := by
  induction r with
  | zero => rfl
  | succ r ih => simp [keyHalf, ih]

/-- The round key of a round is PC2 of the two halves after its rotation (R76). -/
theorem keyRounds_getElem? (sh : List Nat) (C D : BitSeq) (r : Nat) (h : r < sh.length) :
    (keyRounds sh C D)[r]? = some (select (keyHalf sh C (r + 1) ++ keyHalf sh D (r + 1)) tablePC2) := by
  induction sh generalizing C D r with
  | nil => simp at h
  | cons n sh ih =>
    cases r with
    | zero => rfl
    | succ r => rw [keyRounds, List.getElem?_cons_succ, ih _ _ _ (by simpa using h), keyHalf_cons, keyHalf_cons]

/-! ### The cipher's rounds -/

/-- The halves after `r` rounds (R100). -/
def halves (ks : List BitSeq) (LR : BitSeq × BitSeq) : Nat → BitSeq × BitSeq
  | 0 => LR
  | r + 1 => feistelRound (halves ks LR r) (ks.getD r [])

theorem halves_cons (K : BitSeq) (ks : List BitSeq) (LR : BitSeq × BitSeq) (r : Nat) :
    halves (K :: ks) LR (r + 1) = halves ks (feistelRound LR K) r := by
  induction r with
  | zero => rfl
  | succ r ih => rw [halves, ih, halves]; rfl

theorem feistel_eq_halves (ks : List BitSeq) (LR : BitSeq × BitSeq) : feistel ks LR = halves ks LR ks.length := by
  induction ks generalizing LR with
  | nil => rfl
  | cons K ks ih => rw [List.length_cons, halves_cons, ← ih]; rfl

theorem halves_widths (ks : List BitSeq) {LR : BitSeq × BitSeq} (hL : LR.1.length = 32) (hR : LR.2.length = 32)
    (r : Nat) : (halves ks LR r).1.length = 32 ∧ (halves ks LR r).2.length = 32 := by
  induction r with
  | zero => exact ⟨hL, hR⟩
  | succ r ih => exact feistelRound_widths _ ih.1 ih.2

/-- A round undone. -/
def unround (LR : BitSeq × BitSeq) (K : BitSeq) : BitSeq × BitSeq := (xorBits LR.2 (mangler LR.1 K), LR.1)

theorem unround_feistelRound {LR : BitSeq × BitSeq} (K : BitSeq) (h : LR.1.length = 32) :
    unround (feistelRound LR K) K = LR := by
  obtain ⟨L, R⟩ := LR
  simp only [unround, feistelRound, Prod.mk.injEq, and_true]
  rw [xorBits_comm (mangler R K) L, xorBits_cancel (by simpa using h)]

theorem feistelRound_unround {LR : BitSeq × BitSeq} (K : BitSeq) (h : LR.2.length = 32) :
    feistelRound (unround LR K) K = LR := by
  obtain ⟨L, R⟩ := LR
  simp only [unround, feistelRound, Prod.mk.injEq, true_and]
  rw [xorBits_comm, xorBits_cancel (by simpa using h)]

end Sys2Proof.Machine
end

