-- ==== Sys2Proof/Machine/Assembler.lean ====
section
/-! DEFINITION. The assembler's syntax (spec/30_encoding.md R48), its pseudo-instructions (R49) and the literals
(spec/00_scope.md R10, spec/20_memory.md R32), as functions on characters. This is the host's notation: no step reads it.
What the spec's text leaves open of it is in log entry 16. -/
namespace Sys2Proof.Machine

/-- What a line of assembly stands for. -/
inductive Assembled where
  /-- Blank, or a comment only. -/
  | nothing
  | command (i : Instr)
  /-- Not a line the assembler knows, or an operand that has no legal encoding. -/
  | rejected
  deriving DecidableEq, Repr

/-- Space and tab separate words (log entry 16). -/
def isBlank (c : Char) : Bool := c == ' ' || c == '\t'

/-- A line without its comment: from the first `;` that is not inside double quotes to the end (R48, log entry 16). -/
def stripComment (inString : Bool) : List Char → List Char
  | [] => []
  | c :: rest =>
    if c == ';' && !inString then []
    else c :: stripComment (inString != (c == '"')) rest

/-- Blanks at both ends dropped. -/
def trim (text : List Char) : List Char := ((text.dropWhile isBlank).reverse.dropWhile isBlank).reverse

/-- The number of a hexadecimal digit, either case (R10, log entry 16). -/
def hexDigit (c : Char) : Option Nat :=
  let n := c.toNat
  if 48 ≤ n ∧ n ≤ 57 then some (n - 48)
  else if 65 ≤ n ∧ n ≤ 70 then some (n - 55)
  else if 97 ≤ n ∧ n ≤ 102 then some (n - 87)
  else none

/-- Four bits a digit, first digit first (R10). -/
def hexBits : List Char → Option BitSeq
  | [] => some []
  | c :: rest =>
    match hexDigit c, hexBits rest with
    | some d, some S => some (bitsN 4 d ++ S)
    | _, _ => none

/-- Bit by bit, first bit first (R10). -/
def binaryBits : List Char → Option BitSeq
  | [] => some []
  | c :: rest =>
    match binaryBits rest with
    | none => none
    | some S => if c == '1' then some (true :: S) else if c == '0' then some (false :: S) else none

/-- The text between a double quote at the front and the double quote that ends the operand; there is no escape
(R10, log entry 16). -/
def quotedText : List Char → Option (List Char)
  | '"' :: rest =>
    match rest.reverse with
    | '"' :: body => if body.any (· == '"') then none else some body.reverse
    | _ => none
  | _ => none

/-- A bit-sequence literal `x"..."` or `b"..."` (R10). -/
def bitLiteral : List Char → Option BitSeq
  | 'x' :: text => (quotedText text).bind hexBits
  | 'b' :: text => (quotedText text).bind binaryBits
  | _ => none

/-- One byte a character, its ASCII code; other characters have no meaning (R32). -/
def asciiBytes : List Char → Option ByteSeq
  | [] => some []
  | c :: rest =>
    match asciiBytes rest with
    | none => none
    | some B => if c.toNat < 128 then some (BitVec.ofNat 8 c.toNat :: B) else none

/-- Hexadecimal pairs separated by blanks, first byte first (R10). At least one pair. -/
def hexPairs : List Char → Option ByteSeq
  | c1 :: c0 :: rest =>
    match hexDigit c1, hexDigit c0 with
    | some d1, some d0 =>
      if rest.isEmpty then some [BitVec.ofNat 8 (16 * d1 + d0)] else pairsAfterBlank (BitVec.ofNat 8 (16 * d1 + d0)) rest
    | _, _ => none
  | _ => none
where
  /-- What follows a pair: a blank, then further blanks or a pair. -/
  pairsAfterBlank (b : Byte) : List Char → Option ByteSeq
    | s :: c1 :: c0 :: rest =>
      if isBlank s then
        if isBlank c1 then pairsAfterBlank b (c1 :: c0 :: rest)
        else
          match hexDigit c1, hexDigit c0 with
          | some d1, some d0 =>
            if rest.isEmpty then some [b, BitVec.ofNat 8 (16 * d1 + d0)]
            else (pairsAfterBlank (BitVec.ofNat 8 (16 * d1 + d0)) rest).map (b :: ·)
          | _, _ => none
      else none
    | _ => none

/-- A byte operand: a double-quoted ASCII string or hexadecimal pairs (R48). -/
def byteOperand : List Char → Option ByteSeq
  | '"' :: rest => (quotedText ('"' :: rest)).bind asciiBytes
  | text => hexPairs text

/-- The bits of a pseudo-instruction's string: `bits_of_bytes` of its ASCII bytes (R49). -/
def stringOperand (text : List Char) : Option BitSeq := ((quotedText text).bind asciiBytes).map bitsOfBytes

/-- A decimal number, most significant digit first (R48). -/
def decimal : Nat → List Char → Option Nat
  | n, [] => some n
  | n, c :: rest => if 48 ≤ c.toNat ∧ c.toNat ≤ 57 then decimal (10 * n + (c.toNat - 48)) rest else none

/-- A decimal operand has at least one digit. -/
def decimalOperand (text : List Char) : Option Nat := if text.isEmpty then none else decimal 0 text

/-- A command that takes no operand. -/
def withoutOperand (i : Instr) (operand : List Char) : Option Instr := if operand.isEmpty then some i else none

/-- The command of a mnemonic and its operand text, its pseudo-instructions expanded (R48, R49). -/
def assembleOperand (mnemonic : String) (operand : List Char) : Option Instr :=
  if mnemonic = "LDA" then (bitLiteral operand).map .lda
  else if mnemonic = "LDK" then (bitLiteral operand).map .ldk
  else if mnemonic = "LDV" then (bitLiteral operand).map .ldv
  else if mnemonic = "LDA.S" then (stringOperand operand).map .lda
  else if mnemonic = "LDK.S" then (stringOperand operand).map .ldk
  else if mnemonic = "LDV.S" then (stringOperand operand).map .ldv
  else if mnemonic = "LDM" then (byteOperand operand).map .ldm
  else if mnemonic = "FRND" then (decimalOperand operand).map .frnd
  else
    match ([.nop, .clr, .ksched, .encblk, .encecb, .enccbc, .permIp, .permFp, .permPc1, .permPc2, .permE, .permP] :
      List Instr).find? (fun i => i.mnemonic == mnemonic) with
    | some i => withoutOperand i operand
    | none => none

/-- One line of assembly. An operand above a store's capacity or a round that does not exist is rejected, having no legal
encoding (R45, R49). -/
def assembleLine (line : List Char) : Assembled :=
  let text := trim (stripComment false line)
  if text.isEmpty then .nothing
  else
    match assembleOperand (String.ofList (text.takeWhile (!isBlank ·))) (trim (text.dropWhile (!isBlank ·))) with
    | some i => if i.wellFormed then .command i else .rejected
    | none => .rejected

/-- A program, one command a line, to the command stream the host presents (R47, R48). -/
def assemble : List (List Char) → Option ByteSeq
  | [] => some []
  | line :: rest =>
    match assembleLine line, assemble rest with
    | .nothing, some B => some B
    | .command i, some B => some (encode i ++ B)
    | .rejected, _ => none
    | _, none => none

end Sys2Proof.Machine
end

