-- ==== Sys2Proof/Tests/Slice0.lean ====
section
/-! SUPPORT. The model's own tests and the witnesses of the obligations' hypotheses. Every expected value is one of
spec/95_test_vectors.md, named V<n> or P<n> there, or is written out from the rule a comment names. -/
/- One theorem at a time: the kernel's evaluations of a whole cipher are not held in memory side by side. -/
set_option Elab.async false

namespace Sys2Proof.Tests

open Sys2Proof Sys2Proof.Machine

/-! ### Helpers -/

/-- `n` bits given as a number. -/
def w (n v : Nat) : BitSeq := bitsN n v

/-- The engine after reset with its operands loaded. -/
def loaded (a k v : BitSeq) (msg : ByteSeq) : State := { State.reset with a := a, k := k, v := v, msg := msg }

/-- The machine after reset, with bytes presented. -/
def presented (B : ByteSeq) : State := { State.reset with port := B }

/-- The answer is a next state, and it has the property. -/
def next? (r : Result) (p : State → Bool) : Bool :=
  match r with
  | .next t => p t
  | _ => false

def text : ByteSeq := [0x41, 0x42, 0x43, 0x44, 0x45, 0x46, 0x47, 0x48]

/-- The key and plaintext of V1.1. -/
def key1 : BitSeq := w 64 0x133457799BBCDFF1
def plain1 : BitSeq := w 64 0x0123456789ABCDEF

/-! ### WellFormed: an ill-formed term for each check, and the largest well-formed one (R45) -/

theorem test_wellFormed_lda : Instr.wellFormed (.lda (zeros 128)) = true ∧ Instr.wellFormed (.lda (zeros 129)) = false := by
  decide +kernel
theorem test_wellFormed_ldk : Instr.wellFormed (.ldk (zeros 128)) = true ∧ Instr.wellFormed (.ldk (zeros 129)) = false := by
  decide +kernel
theorem test_wellFormed_ldv : Instr.wellFormed (.ldv (zeros 128)) = true ∧ Instr.wellFormed (.ldv (zeros 129)) = false := by
  decide +kernel
theorem test_wellFormed_ldm : Instr.wellFormed (.ldm text) = true := by decide
theorem MSGCAP_le : Config.MSGCAP ≤ 65528 := by unfold Config.MSGCAP; omega
theorem ldm_illFormed {P : ByteSeq} (h : 65528 < P.length) : Instr.wellFormed (.ldm P) = false :=
  decide_eq_false (by have := MSGCAP_le; omega)
theorem test_wellFormed_ldm_tooLong : Instr.wellFormed (.ldm (List.replicate 65529 0)) = false :=
  ldm_illFormed (by rw [List.length_replicate]; omega)
theorem test_wellFormed_frnd :
    Instr.wellFormed (.frnd 1) = true ∧ Instr.wellFormed (.frnd 16) = true ∧ Instr.wellFormed (.frnd 0) = false ∧
      Instr.wellFormed (.frnd 17) = false := by decide

/-! ### Decode: words written from R44, and section 9 of the vectors -/

theorem test_decode_nop : decode [0x00, 0x00] = .command .nop 2 := by decide
theorem test_decode_clr : decode [0x01, 0x00] = .command .clr 2 := by decide
theorem test_decode_lda : decode [0x10, 0x00, 0x00, 0x03, 0xA0] = .command (.lda [true, false, true]) 5 := by decide
theorem test_decode_ldk :
    decode [0x11, 0x00, 0x00, 0x40, 0x13, 0x34, 0x57, 0x79, 0x9B, 0xBC, 0xDF, 0xF1] = .command (.ldk key1) 12 := by
  decide +kernel
theorem test_decode_ldv :
    decode [0x12, 0x00, 0x00, 0x38, 0x31, 0x32, 0x33, 0x34, 0x35, 0x36, 0x37] =
      .command (.ldv (w 56 0x31323334353637)) 11 := by decide +kernel
theorem test_decode_ldm :
    decode [0x13, 0x00, 0x00, 0x0F, 0x49, 0x20, 0x4C, 0x4F, 0x56, 0x45, 0x20, 0x53, 0x45, 0x43, 0x55, 0x52, 0x49, 0x54,
        0x59] =
      .command (.ldm [0x49, 0x20, 0x4C, 0x4F, 0x56, 0x45, 0x20, 0x53, 0x45, 0x43, 0x55, 0x52, 0x49, 0x54, 0x59]) 19 := by
  decide
theorem test_decode_perms :
    decode [0x20, 0x00] = .command .permIp 2 ∧ decode [0x20, 0x01] = .command .permFp 2 ∧
      decode [0x20, 0x02] = .command .permPc1 2 ∧ decode [0x20, 0x03] = .command .permPc2 2 ∧
      decode [0x20, 0x04] = .command .permE 2 ∧ decode [0x20, 0x05] = .command .permP 2 := by decide
theorem test_decode_ksched : decode [0x30, 0x00] = .command .ksched 2 := by decide
theorem test_decode_frnd : decode [0x40, 0x01] = .command (.frnd 1) 2 ∧ decode [0x40, 0x10] = .command (.frnd 16) 2 := by
  decide
theorem test_decode_encrypt :
    decode [0x50, 0x00] = .command .encblk 2 ∧ decode [0x60, 0x00] = .command .encecb 2 ∧
      decode [0x61, 0x00] = .command .enccbc 2 := by decide
/-- V9.2, V9.5, V9.6. -/
theorem test_decode_illegal_loads :
    decode [0x10, 0x00, 0x00, 0x03, 0xB0] = .illegal .padBitSet 5 ∧
      decode ([0x10, 0x00, 0x00, 0x81] ++ List.replicate 17 0) = .illegal .tooManyBits 21 ∧
      decode [0x10, 0x01, 0x00, 0x00] = .illegal .argNotZero 4 := by decide +kernel
/-- V9.9 to V9.12. -/
theorem test_decode_illegal_controls :
    decode [0x70, 0x00] = .illegal .unassignedOp 2 ∧ decode [0x20, 0x06] = .illegal .noSuchTable 2 ∧
      decode [0x40, 0x00] = .illegal .noSuchRound 2 ∧ decode [0x40, 0x11] = .illegal .noSuchRound 2 ∧
      decode [0x50, 0x01] = .illegal .argNotZero 2 := by decide
/-- V9.7, V9.8, and the empty stream. -/
theorem test_decode_incomplete :
    decode [0x10, 0x00, 0x00] = .incomplete ∧ decode [0x10, 0x00, 0x00, 0x40, 0x01, 0x23, 0x45] = .incomplete ∧
      decode [] = .incomplete := by decide
/-- V9.17: the pad bit of a 63-bit load is encoded as 0. -/
theorem test_encode_63_bits :
    encode (.lda (plain1.take 63)) = [0x10, 0x00, 0x00, 0x3F, 0x01, 0x23, 0x45, 0x67, 0x89, 0xAB, 0xCD, 0xEE] := by
  decide +kernel

/-- The opcode table's numbering: a row's word, and an operand word in bits 31:16. -/
theorem test_tableWord :
    decodeTableWord 16 0x5000 = some .encblk ∧ decodeTableWord 16 0x1000 = some (.lda []) ∧
      decodeTableWord 32 0x31000 = some (.lda (zeros 3)) ∧ decodeTableWord 16 0x4001 = some (.frnd 1) ∧
      decodeTableWord 16 0x4000 = none := by decide

/-! ### The assembler (R48, R49) -/

theorem test_assemble_program :
    assemble ["LDK x\"133457799BBCDFF1\" ; V1.1".toList, "".toList, "ENCBLK".toList] =
      some [0x11, 0x00, 0x00, 0x40, 0x13, 0x34, 0x57, 0x79, 0x9B, 0xBC, 0xDF, 0xF1, 0x50, 0x00] := by decide +kernel
theorem test_assemble_pseudo : assembleLine "LDK.S \"ABCDEFGH\"".toList = .command (.ldk (w 64 0x4142434445464748)) := by
  decide +kernel
theorem test_assemble_too_long : assembleLine "LDK.S \"ABCDEFGHABCDEFGHI\"".toList = .rejected := by decide +kernel
theorem test_assemble_bytes : assembleLine "LDM 41 42 43".toList = .command (.ldm [0x41, 0x42, 0x43]) := by decide +kernel
theorem test_assemble_round :
    assembleLine "FRND 16".toList = .command (.frnd 16) ∧ assembleLine "FRND 17".toList = .rejected := by decide +kernel

/-! ### One step of each command -/

/-- R55, R21: ECODE cleared, ESTICKY and RKV kept. -/
theorem test_nop : next? (exec .nop { State.reset with status := 0x0037 }) (fun t => t.status == 0x0030) = true := by decide
theorem test_clr :
    next? (exec .clr { loaded plain1 key1 [] text with status := 0x0037, q := [true] })
      (fun t => decide (t.toEngine = Engine.reset)) = true := by decide +kernel
/-- V9.1, run as the first step. -/
theorem test_lda :
    next? (step (presented [0x10, 0x00, 0x00, 0x03, 0xA0, 0x00]))
      (fun t => t.a == [true, false, true] && t.alen == 3 && t.status == 0 && t.port == [0x00]) = true := by decide
/-- V9.20: the round keys of the same key are dropped. -/
theorem test_ldk :
    next? (exec (.ldk key1) { loaded [] key1 [] [] with status := 0x0020, rk := Vector.replicate 16 5 })
      (fun t => t.klen == 64 && t.rk == Vector.replicate 16 0 && t.status == 0) = true := by decide +kernel
theorem test_ldv : next? (exec (.ldv (zeros 56)) State.reset) (fun t => t.vlen == 56 && t.klen == 0) = true := by decide
/-- V9.22: CPH keeps the earlier ciphertext. -/
theorem test_ldm :
    next? (exec (.ldm text) { State.reset with cph := text }) (fun t => t.msg == text && t.clen == 8) = true := by decide

/-- V7.1. -/
theorem test_permIp :
    next? (exec .permIp (loaded plain1 [] [] [])) (fun t => t.q == w 64 0xCC00CCFFF0AAF0AA && t.qlen == 64) = true := by
  decide +kernel
/-- V7.2. -/
theorem test_permFp :
    next? (exec .permFp (loaded plain1 [] [] [])) (fun t => t.q == w 64 0xFF330FAA00330FAA) = true := by decide +kernel
/-- V7.19: 63 bits are enough for PC1. -/
theorem test_permPc1 :
    next? (exec .permPc1 (loaded (key1.take 63) [] [] [])) (fun t => t.q == w 56 0xF0CCAAF556678F) = true := by
  decide +kernel
/-- V7.5. -/
theorem test_permPc2 :
    next? (exec .permPc2 (loaded (w 56 0xE19955FAACCF1E) [] [] [])) (fun t => t.q == w 48 0x1B02EFFC7072) = true := by
  decide +kernel
/-- V7.9. -/
theorem test_permE :
    next? (exec .permE (loaded (w 32 0x00000001) [] [] [])) (fun t => t.q == w 48 0x800000000002) = true := by
  decide +kernel
/-- V7.7. -/
theorem test_permP :
    next? (exec .permP (loaded (w 32 0x5C82B597) [] [] [])) (fun t => t.q == w 32 0x234AA9BB) = true := by decide +kernel
/-- V7.18 and V10.16: the earlier result is emptied. -/
theorem test_perm_short :
    next? (exec .permIp { loaded (plain1.take 63) [] [] [] with q := plain1 }) (fun t => t.q == [] && t.status == 0x0015) =
      true := by decide +kernel

/-- Section 3 of the vectors: K_1 and K_16. -/
theorem test_ksched :
    next? (exec .ksched (loaded [] key1 [] []))
      (fun t => t.rkAt 1 == 0x1B02EFFC7072 && t.rkAt 16 == 0xCB3D8B0E17F5 && t.status == 0x0020) = true := by decide +kernel
/-- V10.12. -/
theorem test_ksched_no_key : next? (exec .ksched State.reset) (fun t => t.status == 0x0012) = true := by decide

/-- The machine with `K_1` and `K_16` of section 3 in RK. -/
def keyed (a : BitSeq) : State :=
  { loaded a key1 [] [] with
    rk := ((Vector.replicate 16 0).set 0 0x1B02EFFC7072).set 15 0xCB3D8B0E17F5, status := 0x0020 }

/-- V8.8 and V8.9. -/
theorem test_frnd :
    next? (exec (.frnd 1) (keyed (w 32 0xF0AAF0AA))) (fun t => t.q == w 32 0x234AA9BB && t.status == 0x0020) = true ∧
      next? (exec (.frnd 16) (keyed (w 32 0x43423234))) (fun t => t.q == w 32 0xC8C04F98) = true := by decide +kernel
/-- V10.10, V10.11: the block's length comes before readiness. -/
theorem test_frnd_errors :
    next? (exec (.frnd 1) (loaded (w 32 0xF0AAF0AA) [] [] [])) (fun t => t.status == 0x0017) = true ∧
      next? (exec (.frnd 1) (loaded plain1 [] [] [])) (fun t => t.status == 0x0011) = true := by decide +kernel
/-- V8.2, V8.4: a corner entry of every S-box. -/
theorem test_mangler :
    mangler (zeros 32) (zeros 48) = w 32 0xD8D8DBBC ∧ mangler (w 32 0xFFFFFFFF) (zeros 48) = w 32 0x38DBF9CB := by
  decide +kernel
/-- V8.7: the outer bits are the row, the first of them the more significant. -/
theorem test_sbox_selector :
    SBox 0 (sboxRow [false, true, true, false, true, true]) (sboxCol [false, true, true, false, true, true]) = 5 := by decide

/-- V1.1, the published vector. -/
theorem test_encryptBlock : encryptBlock plain1 key1 = .ok (w 64 0x85E813540F0AB405) := by decide +kernel
/-- V10.3, V10.4, by a step that fetches the word. -/
theorem test_encblk_errors :
    next? (step (State.reset.withFetchWord 16 0x5000)) (fun t => t.status == 0x0011 && t.port == []) = true ∧
      next? (exec .encblk (loaded plain1 [] [] [])) (fun t => t.status == 0x0012) = true := by decide +kernel

/-- V6.8: nine bytes, the second Block zero-filled. -/
theorem test_encecb :
    next? (exec .encecb (loaded [] (w 64 0x4142434445464748) [] (text ++ [0x49])))
      (fun t => bitsOfBytes t.cph == w 128 0xD46EB4C9228013B712A8BD2AF1116DA8 && t.status == 0x0020 && t.q == []) = true := by
  decide +kernel
/-- V10.5, V10.6: message before key; CPH emptied. -/
theorem test_encecb_errors :
    next? (exec .encecb { loaded [] [] [] [0x53] with cph := text }) (fun t => t.status == 0x0014 && t.cph == []) = true ∧
      next? (exec .encecb (loaded [] (zeros 56) [] text)) (fun t => t.status == 0x0012) = true := by decide
/-- V6.8, the 8-byte message: the chain starts from V, which is kept. -/
theorem test_enccbc :
    next? (exec .enccbc (loaded [] (w 64 0x4142434445464748) (w 64 0x3132333435363738) text))
      (fun t => bitsOfBytes t.cph == w 64 0x9C7A4D601B492B1D && t.v == w 64 0x3132333435363738) = true := by decide +kernel
/-- V10.7. -/
theorem test_enccbc_errors :
    next? (exec .enccbc (loaded [] (zeros 64) (zeros 56) text)) (fun t => t.status == 0x0013 && t.clen == 0) = true := by
  decide

/-- V9.19: an illegal command does not stop the stream. -/
theorem test_illegal_then_lda :
    next? (step (presented [0x70, 0x00, 0x10, 0x00, 0x00, 0x03, 0xA0]))
      (fun t => t.status == 0x0016 && next? (step t) (fun u => u.a == [true, false, true] && u.status == 0x0010)) = true := by
  decide
/-- R22, R143: the host reads ALEN, and number 7. -/
theorem test_host_reads :
    next? (step { loaded (zeros 3) [] [] [] with moves := [.readRegister 1] }) (fun t => t.readout == some (.word 3)) = true ∧
      next? (step { State.reset with moves := [.readRegister 7] }) (fun t => t.readout == some (.word 0)) = true := by
  decide
/-- R131: reset from the host. -/
theorem test_host_reset :
    next? (step { loaded (zeros 3) [] [] [] with moves := [.reset], port := [0x10], status := 0x0016 })
      (fun t => decide (t = State.reset)) = true := by decide +kernel
/-- R33, R34: zero beyond the message's end; a write at the end extends the store, one inside keeps the rest. -/
theorem test_memory :
    memRead [1, 2, 3] 2 3 = [3, 0, 0] ∧ memWrite [1, 2] 2 [3] = [1, 2, 3] ∧ memWrite [1, 2, 3] 1 [9] = [1, 9, 3] := by decide

/-! ### Witnesses: states and operands that meet each obligation's hypotheses, at the ends of their ranges -/

/-- A state with the invariant at its ends: full operand stores, a 64-bit result, one ciphertext Block. -/
def full : State :=
  { loaded (zeros 128) (zeros 128) (zeros 128) text with q := zeros 64, cph := text, status := 0x0015 }

/-- LengthRegistersNeverWrap, StepKeepsInvariants (its first hypothesis), with round keys invalid. -/
theorem witness_inv : full.toEngine.Inv where
  aCap := by decide +kernel
  kCap := by decide +kernel
  vCap := by decide +kernel
  memory := by
    have h1 : 8 ≤ Config.MSGCAP := by unfold Config.MSGCAP; omega
    have h2 : 8 ≤ Config.CPHCAP := by unfold Config.CPHCAP; omega
    simp only [Memory.wf, Bool.and_eq_true, decide_eq_true_eq]
    exact ⟨⟨h1, rfl⟩, h2⟩
  qLengths := by decide
  keysValid := by decide
  keysCleared := fun _ r h1 h2 => by
    have : ∀ r ∈ List.range 17, 1 ≤ r → full.rkBits r = zeros 48 := by decide +kernel
    exact this r (List.mem_range.mpr (by omega)) h1
  ecodeRange := by decide
  stickySet := by decide
  reservedZero := by decide

/-- The invariant with valid round keys: those of the weak key whose round keys are all ones. -/
def weakKeyed : State :=
  { loaded [] (w 64 0xFEFEFEFEFEFEFEFE) [] [] with rk := Vector.replicate 16 0xFFFFFFFFFFFF, status := 0x0020 }

theorem witness_inv_keys : weakKeyed.toEngine.Inv where
  aCap := by decide
  kCap := by decide +kernel
  vCap := by decide
  memory := by
    simp only [Memory.wf, Bool.and_eq_true, decide_eq_true_eq]
    exact ⟨⟨Nat.zero_le _, rfl⟩, Nat.zero_le _⟩
  qLengths := by decide
  keysValid := fun _ => by
    have : ∀ r ∈ List.range 17, 1 ≤ r → weakKeyed.rkBits r = roundKey weakKeyed.k r := by decide +kernel
    exact ⟨by decide +kernel, fun r h1 h2 => this r (List.mem_range.mpr (by omega)) h1⟩
  keysCleared := by decide
  ecodeRange := by decide
  stickySet := by decide
  reservedZero := by decide

/-- StepKeepsInvariants: both hypotheses, on a step that runs a command. -/
theorem witness_StepKeepsInvariants :
    { full with port := [0x00, 0x00] }.toEngine.Inv ∧ ∃ t, step { full with port := [0x00, 0x00] } = .next t :=
  ⟨witness_inv, _, rfl⟩

/-- RegisterNumbersReadTheStores (and the ranges of ResetLeavesEverythingEmpty): each clause, at both ends of the ranges
of R22. -/
theorem witness_registers :
    full.readRegister 0 = .word 0x0015 ∧ full.readRegister 1 = .word 128 ∧ full.readRegister 2 = .word 128 ∧
      full.readRegister 3 = .word 128 ∧ full.readRegister 4 = .word 8 ∧ full.readRegister 5 = .word 64 ∧
      full.readRegister 6 = .word 8 ∧ [7, 8, 15, 22, 32, 49, 65535].all (full.readRegister · == .word 0) = true ∧
      full.readRegister 16 = .bits (zeros 128) ∧ full.readRegister 19 = .bytes text ∧
      full.readRegister 20 = .bits (zeros 64) ∧ full.readRegister 21 = .bytes text ∧
      (keyed []).readRegister 33 = .bits (w 48 0x1B02EFFC7072) ∧ (keyed []).readRegister 48 = .bits (w 48 0xCB3D8B0E17F5) ∧
      (keyed []).readRegister 34 = .bits (zeros 48) := by decide +kernel

/-- BytesAndBitsAreInverse: the last bit of the last byte. -/
theorem witness_bytes : 7 < text.length ∧ 7 < 8 ∧ (zeros 64).length % 8 = 0 := by decide

/-- HostReadsAndPresentsWithoutSideEffect, ResetMoveResetsTheEngine, IncompleteCommandWaits: the port empty, or holding
the longest kind of incomplete head. -/
theorem witness_host :
    decode { State.reset with moves := [.readRegister 48] }.port = .incomplete ∧
      decode { State.reset with port := [0x10, 0x00, 0x00], moves := [.present [0x03, 0xA0]] }.port = .incomplete ∧
      decode { State.reset with port := [0x13, 0x00, 0xFF, 0xFF], moves := [.reset] }.port = .incomplete ∧
      decode { State.reset with port := [0x00] }.port = .incomplete := by decide +kernel

/-- StepRunsTheDecodedCommand, IllegalCommandChangesOnlyStatus, StepNeverStopsAndConsumes. -/
theorem witness_step :
    decode (presented [0x40, 0x10, 0x01]).port = .command (.frnd 16) 2 ∧
      decode (presented [0x40, 0x11, 0x01]).port = .illegal .noSuchRound 2 ∧
      decode (presented [0x40, 0x11, 0x01]).port ≠ .incomplete := by decide

/-- DecodeOfEncode: each operand at its largest value. -/
theorem witness_DecodeOfEncode :
    (Instr.lda (w 128 0xFFFFFFFFFFFFFFFFFFFFFFFFFFFFFFFF)).WellFormed ∧ (Instr.lda []).WellFormed ∧
      (Instr.frnd 1).WellFormed ∧ (Instr.frnd 16).WellFormed ∧
      (Instr.ldm (List.replicate Config.MSGCAP 0xFF)).WellFormed :=
  ⟨by decide +kernel, by decide, by decide, by decide, decide_eq_true (by rw [List.length_replicate])⟩

/-- EncodeOfDecode: a load with pad bits, and bytes after it. -/
theorem witness_EncodeOfDecode : decode [0x12, 0x00, 0x00, 0x01, 0x80, 0x00] = .command (.ldv [true]) 5 := by decide

/-- DecoderFollowsTheOpcodeMap: the row whose mask is not all ones. -/
theorem witness_DecoderFollowsTheOpcodeMap : decode (bytesOfWord 0x4010 ++ [0xFF]) = .command (.frnd 16) 2 := by decide

/-- IllegalControlEncodings, clause by clause: the neighbours of the assigned encodings. -/
theorem witness_IllegalControlEncodings :
    (0x02#8).toNat ∉ [0x00, 0x01, 0x10, 0x11, 0x12, 0x13, 0x20, 0x30, 0x40, 0x50, 0x60, 0x61] ∧
      ((0x61#8).toNat ∈ [0x00, 0x01, 0x30, 0x50, 0x60, 0x61] ∧ 0x01#8 ≠ 0) ∧
      ((0x20#8).toNat = 0x20 ∧ 5 < (0x06#8).toNat) ∧
      ((0x40#8).toNat = 0x40 ∧ (0x00#8).toNat = 0) ∧ ((0x40#8).toNat = 0x40 ∧ 16 < (0x11#8).toNat) := by decide

/-- IllegalLoadEncodings, clause by clause. -/
theorem witness_IllegalLoadEncodings :
    ((0x10#8).toNat ∈ [0x10, 0x11, 0x12] ∧ ([] : ByteSeq).length = (256 * (0#8).toNat + (0#8).toNat + 7) / 8 ∧ 0x01#8 ≠ 0) ∧
      ((0x11#8).toNat ∈ [0x10, 0x11, 0x12] ∧
        (List.replicate 17 (0 : Byte)).length = (256 * (0#8).toNat + (0x81#8).toNat + 7) / 8 ∧
        128 < 256 * (0#8).toNat + (0x81#8).toNat) ∧
      ((0x12#8).toNat ∈ [0x10, 0x11, 0x12] ∧ ([0xB0] : ByteSeq).length = (256 * (0#8).toNat + (3#8).toNat + 7) / 8 ∧
        256 * (0#8).toNat + (3#8).toNat ≤ 128 ∧
        ∃ j, 256 * (0#8).toNat + (3#8).toNat ≤ j ∧ (bitsOfBytes [0xB0])[j]? = some true) :=
  ⟨by decide, by decide, by decide, by decide, by decide, 3, by decide, by decide⟩

theorem witness_IllegalLoadEncodings_bytes :
    (0x13#8).toNat = 0x13 ∧ (List.replicate 65535 (0 : Byte)).length = 256 * (0xFF#8).toNat + (0xFF#8).toNat ∧
      Config.MSGCAP < (List.replicate 65535 (0 : Byte)).length := by
  have := MSGCAP_le
  rw [List.length_replicate]
  exact ⟨rfl, rfl, by omega⟩

/-- The loads' and controls' illegal encodings, as streams: LDA with `arg` 1, LDK of 129 bits, LDV with a pad bit set,
LDM of 65535 bytes, CLR with `arg` 1. -/
theorem witness_rejected :
    (presented [0x10, 0x01, 0x00, 0x00]).port = 0x10#8 :: 0x01 :: 0 :: 0 :: ([] ++ []) ∧
      (presented ([0x11, 0x00, 0x00, 0x81] ++ List.replicate 17 0)).port =
        0x11#8 :: 0 :: 0 :: 0x81 :: (List.replicate 17 0 ++ []) ∧
      (presented [0x12, 0x00, 0x00, 0x03, 0xB0, 0x00]).port = 0x12#8 :: 0 :: 0 :: 0x03 :: ([0xB0] ++ [0x00]) ∧
      (presented [0x01, 0x01]).port = 0x01#8 :: 0x01 :: [] := by decide

theorem ldm_stream (P : ByteSeq) :
    (presented ([0x13, 0x00, 0xFF, 0xFF] ++ P)).port = 0x13#8 :: 0 :: 0xFF :: 0xFF :: (P ++ []) := by
  rw [List.append_nil]; rfl

theorem witness_rejected_bytes :
    (presented ([0x13, 0x00, 0xFF, 0xFF] ++ List.replicate 65535 0)).port =
        0x13#8 :: 0 :: 0xFF :: 0xFF :: (List.replicate 65535 0 ++ []) ∧
      Config.MSGCAP < (List.replicate 65535 (0 : Byte)).length :=
  ⟨ldm_stream _, witness_IllegalLoadEncodings_bytes.2.2⟩

/-- The loads' hypotheses at the stores' capacities. -/
theorem witness_loads :
    (w 128 0x0123456789ABCDEF0123456789ABCDEF).length ≤ 128 ∧ ([] : BitSeq).length ≤ 128 ∧
      (List.replicate Config.MSGCAP (0xFF : Byte)).length ≤ Config.MSGCAP :=
  ⟨by decide +kernel, by decide, by rw [List.length_replicate]⟩

/-- IllFormedCommandsRaiseIllegalCommand. -/
theorem witness_IllFormed :
    ¬ (Instr.lda (zeros 129)).WellFormed ∧ ¬ (Instr.frnd 0).WellFormed ∧ ¬ (Instr.frnd 17).WellFormed ∧
      ¬ (Instr.ldm (List.replicate 65529 0)).WellFormed :=
  ⟨by decide +kernel, by decide, by decide, by rw [Instr.WellFormed, test_wellFormed_ldm_tooLong]; decide⟩

/-- PermuteContract: the shortest input E accepts, and one bit less. -/
theorem witness_PermuteContract :
    (∀ p ∈ tableE, 1 ≤ p ∧ p ≤ (zeros 32).length) ∧ ∃ p ∈ tableE, p < 1 ∨ (zeros 31).length < p := by decide

/-- PermCommandsSelectBits, both its clauses: every row of the list, with the shortest operand it accepts
and the longest it rejects. -/
theorem witness_perms :
    permCommands.length = 6 ∧ ∀ row ∈ permCommands,
      row.2.2.1 ≤ (loaded (zeros row.2.2.1) [] [] []).a.length ∧
        (loaded (zeros (row.2.2.1 - 1)) [] [] []).a.length < row.2.2.1 := by decide +kernel

/-- FinalPermutationInvertsInitial, KeyScheduleFollowsItsRounds, KeyScheduleIsLinear, EncryptBlockFollowsItsRounds,
EncryptBlockIsBijective: lengths and round numbers. -/
theorem witness_lengths :
    plain1.length = 64 ∧ key1.length = 64 ∧ (key1.take 63).length ≠ 64 ∧ (1 ≤ 16 ∧ 16 ≤ 16) ∧
      (27 < 28 ∧ (1 = if 16 ∈ [1, 2, 9, 16] then 1 else 2)) ∧ (2 = if 15 ∈ [1, 2, 9, 16] then 1 else 2) := by
  decide +kernel

/-- RoundKeysIgnoreParityBits: V3.1, two different keys. -/
theorem witness_SameButParity : SameButParity key1 (w 64 0x133457799BBCDFF0) ∧ key1 ≠ w 64 0x133457799BBCDFF0 := by
  have : ∀ i ∈ List.range 64, i % 8 ≠ 7 → key1[i]? = (w 64 0x133457799BBCDFF0)[i]? := by decide +kernel
  exact ⟨⟨by decide +kernel, by decide +kernel, fun i hi => this i (List.mem_range.mpr hi)⟩, by decide +kernel⟩

/-- KschedWritesTheRoundKeys, both its clauses. -/
theorem witness_ksched : (loaded [] key1 [] []).k.length = 64 ∧ (loaded [] (key1.take 63) [] []).k.length ≠ 64 := by
  decide +kernel

/-- SubstitutionLooksUpEachGroup, ManglerIsItsFourSteps. -/
theorem witness_mangler : (w 48 0x6117BA866527).length = 48 ∧ (w 32 0xF0AAF0AA).length = 32 ∧ 7 < 8 := by decide

/-- FrndAppliesTheMangler, its three clauses. -/
theorem witness_frnd :
    ((keyed (w 32 0xF0AAF0AA)).a.length = 32 ∧ (keyed (w 32 0xF0AAF0AA)).rkv = true) ∧
      (keyed (zeros 33)).a.length ≠ 32 ∧
      ((loaded (zeros 32) [] [] []).a.length = 32 ∧ (loaded (zeros 32) [] [] []).rkv = false) := by decide +kernel

/-- EncblkEncryptsTheBlock, its three clauses. -/
theorem witness_encblk :
    ((loaded plain1 key1 [] []).a.length = 64 ∧ (loaded plain1 key1 [] []).k.length = 64) ∧
      (loaded (plain1.take 63) key1 [] []).a.length ≠ 64 ∧
      ((loaded plain1 [] [] []).a.length = 64 ∧ (loaded plain1 [] [] []).k.length ≠ 64) := by decide +kernel

/-- EncryptBlockComplements: V1.1 meets its hypothesis. -/
theorem witness_EncryptBlockComplements : ∃ C, encryptBlock plain1 key1 = .ok C := ⟨_, test_encryptBlock⟩

/-- MemReadAndMemWriteByByte: a write at the end of the store, and an address inside and outside it. -/
theorem witness_memory :
    1 < 2 ∧ 8 ≤ text.length ∧ (8 ≤ 8 ∧ 8 < 8 + text.length) ∧ (7 < 8 ∨ 8 + text.length ≤ 7) := by decide

/-- EncecbEncryptsEveryBlock, EnccbcChainsTheBlocks: the shortest message. -/
theorem witness_modes :
    8 ≤ (loaded [] key1 plain1 text).msg.length ∧ (loaded [] key1 plain1 text).k.length = 64 ∧
      (loaded [] key1 plain1 text).v.length = 64 ∧ 1 ≤ ((loaded [] key1 plain1 text).msg.length + 7) / 8 := by
  decide +kernel

/-- EncecbEncryptsEveryBlock, EnccbcChainsTheBlocks: their error clauses. -/
theorem witness_modes_errors :
    (loaded [] key1 plain1 (text.take 7)).msg.length < 8 ∧
      (8 ≤ (loaded [] [] plain1 text).msg.length ∧ (loaded [] [] plain1 text).k.length ≠ 64) ∧
      (8 ≤ (loaded [] key1 [] text).msg.length ∧ (loaded [] key1 [] text).k.length = 64 ∧
        (loaded [] key1 [] text).v.length ≠ 64) := by decide +kernel

/-- EcbOrderIsFree: two Blocks, the second first. -/
theorem witness_EcbOrderIsFree :
    (∃ out, ecb (text ++ text) key1 = .ok out) ∧ [2, 1].Perm (blockNumbers (text ++ text)) :=
  ⟨⟨_, ecb_ok (by decide) (by decide +kernel)⟩, by decide⟩

/-- CbcDiffusionExactCondition: V6.6, the degenerate IV. -/
theorem witness_CbcDiffusion :
    (bytesOfBits (w 64 0xB55DA875B88451C0)).length = 8 ∧ (w 64 0xB54C8A46FCD137B7).length = 64 ∧
      cbc (bytesOfBits (w 64 0xB55DA875B88451C0) ++ bytesOfBits (w 64 0xB55DA875B88451C0)) (w 64 0x4142434445464748)
          (w 64 0xB54C8A46FCD137B7) =
        .ok (bytesOfBits (w 64 0xB54C8A46FCD137B7) ++ bytesOfBits (w 64 0xB54C8A46FCD137B7)) := by decide +kernel

/-- CbcOfOneBlockIsEcbOfXor, ZeroFillIsInvisible. -/
theorem witness_blocks :
    text.length = 8 ∧ key1.length = 64 ∧ plain1.length = 64 ∧
      (8 ≤ (text ++ [0x49]).length ∧ ((text ++ [0x49]).length + 7 + 7) / 8 = ((text ++ [0x49]).length + 7) / 8) := by
  decide +kernel

/-- StoresChangeOnlyByTheirCommands: a change of each store. -/
theorem witness_stores :
    next? (exec (.lda [true]) State.reset) (fun t => t.a != []) = true ∧
      next? (exec (.ldk [true]) State.reset) (fun t => t.k != []) = true ∧
      next? (exec (.ldv [true]) State.reset) (fun t => t.v != []) = true ∧
      next? (exec (.ldm [1]) State.reset) (fun t => t.msg != []) = true ∧
      next? (exec .permP (loaded (zeros 32) [] [] [])) (fun t => t.q != []) = true ∧
      next? (exec .encecb { State.reset with cph := text }) (fun t => t.cph != text) = true := by decide

/-- RoundKeysChangeOnlyByTheirCommands: the file and its flag change. -/
theorem witness_round_keys :
    next? (exec .ksched (loaded [] key1 [] [])) (fun t => t.rk != State.reset.rk && t.rkv != State.reset.rkv) = true := by
  decide +kernel

/-- StickyClearedOnlyByClrOrReset: both ways. -/
theorem witness_sticky :
    (¬ Clean { presented [0x01, 0x00] with status := 0x0010 } ∧
      next? (step { presented [0x01, 0x00] with status := 0x0010 }) (fun t => t.esticky == false) = true) ∧
      (¬ Clean { State.reset with moves := [.reset], status := 0x0010 } ∧
        next? (step { State.reset with moves := [.reset], status := 0x0010 }) (fun t => t.esticky == false) = true) :=
  ⟨⟨by simp [Clean, Engine.esticky, estickyOf], by decide⟩, by simp [Clean, Engine.esticky, estickyOf], by decide⟩

/-- ResultsAreFullOrEmpty, ErrorsChangeOnlyStatusAndResult, EachErrorIsRaisedExactlyWhen, RepeatingACommandChangesNothing:
`exec` answers a next state, with success and with an error of each kind of result store. -/
theorem witness_exec :
    (Instr.permPc1).WellFormed ∧ (Instr.permPc1, tablePC1, 63, 56) ∈ permCommands ∧
      next? (exec .permPc1 (loaded (zeros 63) [] [] [])) (fun t => t.ecode == 0) = true ∧
      next? (exec (.frnd 1) (keyed (zeros 32))) (fun t => t.ecode == 0) = true ∧
      next? (exec .encblk (loaded (zeros 65) [] [] [])) (fun t => t.ecode == 1) = true ∧
      next? (exec .enccbc (loaded [] [] [] [])) (fun t => t.ecode == 4) = true := by decide +kernel

end Sys2Proof.Tests
end

section
/-! SUPPORT. The engine after reset as the host reads it (spec/10_state.md R22, R27). -/
namespace Sys2Proof.Machine

/-- R22, R27: register numbers 1 to 6 are the length registers, and every store is empty after reset. -/
theorem reset_readRegister_length {n : Nat} (h1 : 1 ≤ n) (h6 : n ≤ 6) : Engine.reset.readRegister n = .word 0 := by
  interval_cases n <;> rfl

/-- Settles O1: the stores and STATUS by the fields of `State.reset`, the length registers and the round keys by the
lemmas about the engine after reset. -/
theorem resetLeavesEverythingEmpty : Obligations.ResetLeavesEverythingEmpty :=
  ⟨rfl, rfl, rfl, rfl, rfl, rfl, rfl, fun _ => reset_readRegister_length, fun _ => reset_rkBits⟩

end Sys2Proof.Machine
end

section
/-! SUPPORT. Bytes and bits by index, and the two conversions undone by each other (spec/20_memory.md R30, R31). -/
namespace Sys2Proof.Machine

/-- `bits_N(v)` by index, the bit of weight `2^(N-1)` first (R8). -/
theorem bitsN_getElem? (N v i : Nat) (h : i < N) : (bitsN N v)[i]? = some (v.testBit (N - 1 - i)) := by
  induction N generalizing i with
  | zero => omega
  | succ N ih =>
    cases i with
    | zero => simp [bitsN]
    | succ i => rw [bitsN, List.getElem?_cons_succ, ih i (by omega), show N + 1 - 1 - (i + 1) = N - 1 - i by omega]

/-- R30 within one byte. -/
theorem bitsOfByte_getElem? (b : Byte) (j : Nat) (h : j < 8) : (bitsOfByte b)[j]? = some (b.getLsbD (7 - j)) :=
  bitsN_getElem? 8 b.toNat j h

/-- R30: the place of each bit of each byte. -/
theorem bitsOfBytes_getElem? (B : ByteSeq) (k j : Nat) (hk : k < B.length) (hj : j < 8) :
    (bitsOfBytes B)[8 * k + j]? = (B[k]?).map fun b => b.getLsbD (7 - j) := by
  induction B generalizing k with
  | nil => simp at hk
  | cons b B ih =>
    cases k with
    | zero =>
      have hlt : 8 * 0 + j < (bitsOfByte b).length := by simpa using hj
      rw [bitsOfBytes_cons, List.getElem?_append_left hlt, Nat.mul_zero, Nat.zero_add, bitsOfByte_getElem? b j hj]
      rfl
    | succ k =>
      have hge : (bitsOfByte b).length ≤ 8 * (k + 1) + j := by rw [bitsOfByte_length]; omega
      rw [bitsOfBytes_cons, List.getElem?_append_right hge, bitsOfByte_length,
        show 8 * (k + 1) + j - 8 = 8 * k + j by omega, ih k (by simpa using hk), List.getElem?_cons_succ]

/-- A byte is the number of its eight bits. -/
theorem val_bitsOfByte (b : Byte) : val (bitsOfByte b) = b.toNat := val_bitsN 8 b.toNat b.isLt

/-- The number of eight bits fits in a byte. -/
theorem toNat_ofNat_val {x : BitSeq} (h : x.length ≤ 8) : (BitVec.ofNat 8 (val x)).toNat = val x := by
  rw [BitVec.toNat_ofNat, Nat.mod_eq_of_lt ((val_lt x).trans_le (Nat.pow_le_pow_right (by omega) h))]

/-- Eight bits made a byte are the bits of that byte. -/
theorem bitsOfByte_ofNat_val {x : BitSeq} (h : x.length = 8) : bitsOfByte (BitVec.ofNat 8 (val x)) = x := by
  rw [bitsOfByte, toNat_ofNat_val h.le, ← h, bitsN_val]

/-- R31: bytes made bits give back the bytes. -/
theorem bytesOfBits_bitsOfBytes (B : ByteSeq) : bytesOfBits (bitsOfBytes B) = B := by
  induction B with
  | nil => rfl
  | cons b B ih =>
    rw [bitsOfBytes_cons, bytesOfBits_append8 _ _ (bitsOfByte_length b), ih, val_bitsOfByte, BitVec.ofNat_toNat,
      BitVec.setWidth_eq]

/-- Bits that fill a byte or more: their first byte, then the rest. -/
theorem bytesOfBits_cons_of_length {S : BitSeq} (h : 8 ≤ S.length) :
    bytesOfBits S = BitVec.ofNat 8 (val (S.take 8)) :: bytesOfBits (S.drop 8) := by
  rw [← bytesOfBits_append8 _ _ (List.length_take_of_le h), List.take_append_drop]

/-- R31: whole bytes of bits give back the bits. -/
theorem bitsOfBytes_bytesOfBits (S : BitSeq) (n : Nat) (h : S.length = 8 * n) : bitsOfBytes (bytesOfBits S) = S := by
  induction n generalizing S with
  | zero => rw [List.length_eq_zero_iff.mp h]; rfl
  | succ n ih =>
    have h8 : 8 ≤ S.length := by omega
    have hdrop : (S.drop 8).length = 8 * n := by rw [List.length_drop]; omega
    rw [bytesOfBits_cons_of_length h8, bitsOfBytes_cons, bitsOfByte_ofNat_val (List.length_take_of_le h8), ih _ hdrop,
      List.take_append_drop]

/-- R31: byte `k` is the number of the eight bits from `8k` on. -/
theorem bytesOfBits_getElem? (S : BitSeq) (k : Nat) (h : 8 * k + 8 ≤ S.length) :
    (bytesOfBits S)[k]? = some (BitVec.ofNat 8 (val ((S.drop (8 * k)).take 8))) := by
  induction k generalizing S with
  | zero => rw [bytesOfBits_cons_of_length (by omega)]; rfl
  | succ k ih =>
    have hdrop : 8 * k + 8 ≤ (S.drop 8).length := by rw [List.length_drop]; omega
    rw [bytesOfBits_cons_of_length (by omega), List.getElem?_cons_succ, ih _ hdrop, List.drop_drop,
      show 8 + 8 * k = 8 * (k + 1) by omega]

/-- Settles O19: each bit by its index (R30), the two conversions undone by induction on the bytes and by eights on the
bits, and byte `k` as the number of its eight bits (R31). -/
theorem bytesAndBitsAreInverse : Obligations.BytesAndBitsAreInverse := by
  refine ⟨fun B => ⟨bitsOfBytes_length B, bitsOfBytes_getElem? B⟩, bytesOfBits_bitsOfBytes, fun S hS => ?_⟩
  have hlen : S.length = 8 * (S.length / 8) := by omega
  have hbytes := bytesOfBits_length S _ hlen
  refine ⟨bitsOfBytes_bytesOfBits S _ hlen, hbytes, fun k b hb => ?_⟩
  have hk : k < S.length / 8 := hbytes ▸ (List.getElem?_eq_some_iff.mp hb).1
  rw [bytesOfBits_getElem? S k (by omega)] at hb
  rw [← Option.some.inj hb, toNat_ofNat_val (List.length_take_le 8 _)]

end Sys2Proof.Machine
end

section
/-! SUPPORT. The accesses to the byte stores, byte by byte (spec/20_memory.md R33, R34). -/
namespace Sys2Proof.Machine

/-- R33: a byte of the message, or 0x00 at and beyond its end. -/
theorem memRead_getElem? (msg : ByteSeq) (addr n i : Nat) (h : i < n) :
    (memRead msg addr n)[i]? = if addr + i < msg.length then msg[addr + i]? else some 0x00#8 := by
  have hread : (memRead msg addr n)[i]? = some (msg.getD (addr + i) 0) := by simp [memRead, h]
  rw [hread]
  split
  case isTrue hin => rw [List.getD_eq_getElem _ _ hin, List.getElem?_eq_getElem hin]
  case isFalse hout => rw [List.getD_eq_default _ _ (by omega)]; rfl

/-- Two stores that both hold an address, or both do not, agree there when their default reads do. -/
theorem getElem?_eq_of_getD {B B' : ByteSeq} {a a' : Nat} (hin : a < B.length ↔ a' < B'.length)
    (h : B.getD a 0 = B'.getD a' 0) : B[a]? = B'[a']? := by
  by_cases ha : a < B.length
  · have ha' := hin.mp ha
    rw [List.getD_eq_getElem _ _ ha, List.getD_eq_getElem _ _ ha'] at h
    rw [List.getElem?_eq_getElem ha, List.getElem?_eq_getElem ha', h]
  · rw [List.getElem?_eq_none (by omega), List.getElem?_eq_none (by omega)]

/-- R34: the bytes a write sets. -/
theorem memWrite_getElem?_inside (cph v : ByteSeq) {addr a : Nat} (h1 : addr ≤ a) (h2 : a < addr + v.length) :
    (memWrite cph addr v)[a]? = v[a - addr]? :=
  getElem?_eq_of_getD (by rw [memWrite_length]; omega) (by rw [memWrite_getD, if_pos ⟨h1, h2⟩])

/-- R34: the bytes a write within the store, or at its end, keeps. -/
theorem memWrite_getElem?_outside (cph v : ByteSeq) {addr a : Nat} (hfit : addr ≤ cph.length)
    (h : a < addr ∨ addr + v.length ≤ a) : (memWrite cph addr v)[a]? = cph[a]? :=
  getElem?_eq_of_getD (by rw [memWrite_length]; omega) (by rw [memWrite_getD, if_neg (by omega)])

/-- Settles O42: a read by index (R33), the number of Blocks as `ceil(MLEN / 8)`, and a write inside and outside the
bytes it sets (R34). -/
theorem memReadAndMemWriteByByte : Obligations.MemReadAndMemWriteByByte := by
  refine ⟨fun msg addr n => ⟨memRead_length msg addr n, memRead_getElem? msg addr n⟩, fun msg => ?_,
    fun cph v addr hfit a => ⟨memWrite_getElem?_inside cph v, memWrite_getElem?_outside cph v hfit⟩⟩
  obtain ⟨hle, hlt⟩ := ceilDiv8_bits msg.length
  exact ⟨hlt, hle, fun i => ⟨rfl, messageBlock_length msg i⟩⟩

end Sys2Proof.Machine
end

section
/-! SUPPORT. The loads and the control commands (spec/40_bitvector_and_loads.md R51 to R56): what each answers, and how
the illegal encodings of it leave the stream (spec/30_encoding.md R45, R47). -/
namespace Sys2Proof.Machine

/-! ### A command that succeeds -/

/-- R21: the end of a successful command, against the state it ends in. -/
theorem succeed_statusSucceeds (s : State) : StatusSucceeds s (succeed s) :=
  ⟨ecodeOf_setEcode _ _, estickyOf_setEcode _ _, reservedOf_setEcode _ _⟩

/-- R20, R21: clearing the round keys first changes no field of STATUS but RKV. -/
theorem succeed_clearRoundKeys_statusSucceeds (s : State) : StatusSucceeds s (succeed (clearRoundKeys s)) := by
  obtain ⟨hcode, hsticky, hreserved⟩ := succeed_statusSucceeds (clearRoundKeys s)
  exact ⟨hcode, hsticky.trans (estickyOf_setRkv _ _), hreserved.trans (reservedOf_setRkv _ _)⟩

theorem succeed_rkv (s : State) : (succeed s).rkv = s.rkv := rkvOf_setEcode _ _

theorem succeed_clearRoundKeys_rkv (s : State) : (succeed (clearRoundKeys s)).rkv = false :=
  (succeed_rkv _).trans (rkvOf_setRkv _ _)

theorem exec_lda_of_le {S : BitSeq} (s : State) (h : S.length ≤ 128) :
    exec (.lda S) s = .next (succeed { s with a := S }) :=
  (execLda_cases S s).elim (fun ⟨hlt, _⟩ => absurd h (Nat.not_le.mpr hlt)) And.right

theorem exec_ldk_of_le {S : BitSeq} (s : State) (h : S.length ≤ 128) :
    exec (.ldk S) s = .next (succeed (clearRoundKeys { s with k := S })) :=
  (execLdk_cases S s).elim (fun ⟨hlt, _⟩ => absurd h (Nat.not_le.mpr hlt)) And.right

theorem exec_ldv_of_le {S : BitSeq} (s : State) (h : S.length ≤ 128) :
    exec (.ldv S) s = .next (succeed { s with v := S }) :=
  (execLdv_cases S s).elim (fun ⟨hlt, _⟩ => absurd h (Nat.not_le.mpr hlt)) And.right

theorem exec_ldm_of_le {P : ByteSeq} (s : State) (h : P.length ≤ Config.MSGCAP) :
    exec (.ldm P) s = .next (succeed { s with msg := P }) :=
  (execLdm_cases P s).elim (fun ⟨hlt, _⟩ => absurd h (Nat.not_le.mpr hlt)) And.right

/-- R42: an encoding begins with the two bytes of the command word. -/
theorem encode_take_two {i : Instr} {cw : Word} (h : i.commandWord = cw) : (encode i).take 2 = bytesOfWord cw := by
  rw [← h]
  exact List.take_left' (bytesOfWord_length _)

/-- R7: every message that fits has a length word. -/
theorem lt_of_le_MSGCAP {n : Nat} (h : n ≤ Config.MSGCAP) : n < 2 ^ 16 := by
  unfold Config.MSGCAP at h
  omega

/-- R22: a length register holds a length below `2^16` exactly. -/
theorem toNat_word_of_lt {n : Nat} (h : n < 2 ^ 16) : (BitVec.ofNat 16 n).toNat = n := by
  rw [BitVec.toNat_ofNat, Nat.mod_eq_of_lt h]

/-! ### An illegal encoding -/

/-- R21, R113: STATUS after an error, whatever the store it empties. -/
theorem raise_statusFails (err : EngineError) (store : ResultStore) (s : State) :
    StatusFails err.code s (raise err store s) := by
  simp [StatusFails]

/-- R45, R47, R120: what the decoder calls illegal is rejected from the stream, whatever makes it illegal. -/
theorem rejected_of_decode_illegal {s : State} {used : Nat} (h : ∃ why, decode s.port = .illegal why used) :
    RejectedFromTheStream used s := by
  obtain ⟨why, hdec⟩ := h
  exact ⟨runIllegal why used s, by rw [step, hdec], rfl, raise_statusFails _ _ (consume used s), rfl, rfl, rfl⟩

/-- R45 item 5: a pad bit at some index is found by the decoder's test. -/
theorem any_drop_of_getElem? {S : BitSeq} {n j : Nat} (hj : n ≤ j) (h : S[j]? = some true) :
    (S.drop n).any id = true := by
  refine List.any_eq_true.mpr ⟨true, List.mem_of_getElem? (i := j - n) ?_, rfl⟩
  rwa [List.getElem?_drop, Nat.add_sub_cancel' hj]

/-- R45 items 2 and 5, with the conditions in the decoder's order. -/
theorem decodePayload_bits_illegal {op arg : Byte} {n : Nat} {P : ByteSeq} (used : Nat) (hop : op ≠ 0x13)
    (h : arg ≠ 0 ∨ 128 < n ∨ ∃ j, n ≤ j ∧ (bitsOfBytes P)[j]? = some true) :
    ∃ why, decodePayload op arg n P used = .illegal why used := by
  unfold decodePayload
  by_cases harg : arg = 0
  · by_cases hn : Config.OPCAP < n
    · exact ⟨.tooManyBits, by rw [if_neg (not_not.mpr harg), if_neg hop, if_pos hn]⟩
    · obtain ⟨j, hj, hbit⟩ := (h.resolve_left (not_not.mpr harg)).resolve_left hn
      have hpad := any_drop_of_getElem? hj hbit
      exact ⟨.padBitSet, by rw [if_neg (not_not.mpr harg), if_neg hop, if_neg hn, if_pos hpad]⟩
  · exact ⟨.argNotZero, if_pos harg⟩

/-- R45 items 2 and 6, with the conditions in the decoder's order. -/
theorem decodePayload_bytes_illegal {arg : Byte} {n : Nat} {P : ByteSeq} (used : Nat)
    (h : arg ≠ 0 ∨ Config.MSGCAP < n) : ∃ why, decodePayload 0x13 arg n P used = .illegal why used := by
  unfold decodePayload
  by_cases harg : arg = 0
  · have hn : ¬ n ≤ Config.MSGCAP := Nat.not_le.mpr (h.resolve_left (not_not.mpr harg))
    exact ⟨.messageTooLong, by rw [if_neg (not_not.mpr harg), if_pos rfl, if_neg hn]⟩
  · exact ⟨.argNotZero, if_pos harg⟩

theorem illegalBitLoadsAreRejected {op : Byte} (hload : isLoadOp op = true) (hop : op ≠ 0x13) :
    IllegalBitLoadsAreRejected op := by
  intro s arg n1 n0 P rest hport hlen hbad
  have hP : P.length = payloadLength op (256 * n1.toNat + n0.toNat) := by rw [payloadLength, if_neg hop]; exact hlen
  apply rejected_of_decode_illegal
  rw [hport, decode_load hload hP]
  exact decodePayload_bits_illegal _ hop hbad

theorem illegalByteLoadsAreRejected : IllegalByteLoadsAreRejected := by
  intro s arg n1 n0 P rest hport hlen hbad
  apply rejected_of_decode_illegal
  rw [hport, decode_load (by decide) hlen]
  exact decodePayload_bytes_illegal _ (hlen ▸ hbad)

/-- R45 item 2, for an `op` of format C whose `arg` must be 0. -/
theorem illegalArgsAreRejected {op : Byte} {i : Instr} (hload : isLoadOp op = false)
    (hplain : ∀ arg, decodeControl op arg = decodePlain i arg) : IllegalArgsAreRejected op := by
  intro s arg rest hport harg
  apply rejected_of_decode_illegal
  rw [hport, decode_control hload, hplain]
  exact ⟨.argNotZero, if_neg harg⟩

/-! ### The statements -/

/-- Settles O20: the answer of a load that fits, and the decoder on the illegal encodings. -/
theorem ldaLoadsTheDataOperand : Obligations.LdaLoadsTheDataOperand :=
  ⟨fun S s hS => ⟨(encode_take_two (cw := 0x1000) rfl).trans (by decide), succeed { s with a := S },
    exec_lda_of_le s hS, rfl, toNat_word_of_lt (hS.trans_lt (by decide)), succeed_statusSucceeds _, succeed_rkv _,
    rfl, rfl, rfl⟩,
  illegalBitLoadsAreRejected (by decide) (by decide)⟩

/-- Settles O21: as for LDA, with the round keys cleared whatever the old key was. -/
theorem ldkLoadsTheKeyAndInvalidates : Obligations.LdkLoadsTheKeyAndInvalidates :=
  ⟨fun S s hS => ⟨(encode_take_two (cw := 0x1100) rfl).trans (by decide), succeed (clearRoundKeys { s with k := S }),
    exec_ldk_of_le s hS, rfl, toNat_word_of_lt (hS.trans_lt (by decide)),
    fun _ => clearRoundKeys_rkBits { s with k := S }, succeed_clearRoundKeys_rkv _,
    succeed_clearRoundKeys_statusSucceeds _, rfl, rfl, rfl⟩,
  illegalBitLoadsAreRejected (by decide) (by decide)⟩

/-- Settles O22: as for LDA, in the store of the initialization vector. -/
theorem ldvLoadsTheIv : Obligations.LdvLoadsTheIv :=
  ⟨fun S s hS => ⟨(encode_take_two (cw := 0x1200) rfl).trans (by decide), succeed { s with v := S },
    exec_ldv_of_le s hS, rfl, toNat_word_of_lt (hS.trans_lt (by decide)), succeed_statusSucceeds _, succeed_rkv _,
    rfl, rfl, rfl⟩,
  illegalBitLoadsAreRejected (by decide) (by decide)⟩

/-- Settles O23: the answer of a message that fits, CPH among what is kept, and the decoder on the illegal encodings. -/
theorem ldmLoadsTheMessage : Obligations.LdmLoadsTheMessage :=
  ⟨fun P s hP => ⟨(encode_take_two (cw := 0x1300) rfl).trans (by decide), succeed { s with msg := P },
    exec_ldm_of_le s hP, rfl, toNat_word_of_lt (lt_of_le_MSGCAP hP), succeed_statusSucceeds _, succeed_rkv _,
    rfl, rfl, rfl⟩,
  illegalByteLoadsAreRejected⟩

/-- Settles O24: NOP is the shared end of a successful command and nothing else. -/
theorem nopClearsEcodeOnly : Obligations.NopClearsEcodeOnly :=
  ⟨by decide, illegalArgsAreRejected (by decide) fun _ => rfl, fun s =>
    ⟨succeed s, rfl, succeed_toEngine s, succeed_statusSucceeds s, succeed_rkv s, rfl, rfl, rfl⟩⟩

/-- Settles O25: the engine after CLR is `Engine.reset`, whose registers and round keys the lemmas on reset read. -/
theorem clrGivesTheResetState : Obligations.ClrGivesTheResetState :=
  ⟨by decide, illegalArgsAreRejected (by decide) fun _ => rfl, fun s =>
    ⟨{ s with toEngine := Engine.reset }, rfl, rfl, rfl, rfl, rfl, rfl, rfl, rfl, rfl,
      fun _ => reset_readRegister_length, fun _ => reset_rkBits, rfl, rfl, rfl⟩⟩

end Sys2Proof.Machine
end

section
/-! SUPPORT. The permutation engine and the six PERM commands (spec/41_permutation_engine.md R57, R67 to R72): what
`permute` selects, and what each command answers with a long enough operand and with a shorter one. -/
namespace Sys2Proof.Machine

/-! ### `permute` -/

/-- R57: with every entry in bounds, output bit `j` is the input bit the table's entry `j` names. -/
theorem select_getElem?_of_inBounds {S : BitSeq} {T : PermTable} (hT : ∀ p ∈ T, 1 ≤ p ∧ p ≤ S.length) {j p : Nat}
    (hp : T[j]? = some p) : (select S T)[j]? = S[p - 1]? := by
  obtain ⟨hpos, hle⟩ := hT p (List.mem_of_getElem? hp)
  rw [select_getElem?, hp, Option.map_some, bitAt_eq (by omega)]

/-- Settles O27: within bounds `permute` is `select`, read bit by bit; an entry out of bounds fails the test that comes
before any output. -/
theorem permuteContract : Obligations.PermuteContract := fun S T =>
  ⟨fun hT => ⟨select S T, permute_ok hT, select_length S T, fun _ _ => select_getElem?_of_inBounds hT⟩, permute_error⟩

/-! ### The PERM commands -/

theorem exec_of_mem_permCommands :
    ∀ row ∈ permCommands, ∀ s, exec row.1 s = permCommand row.2.1 s := by
  simp only [permCommands, List.forall_mem_cons]
  exact ⟨fun _ => rfl, fun _ => rfl, fun _ => rfl, fun _ => rfl, fun _ => rfl, fun _ => rfl,
    fun _ h => absurd h List.not_mem_nil⟩

/-- R58, R61 to R66: each row names its table's largest entry and its length, which a length register holds. -/
theorem permCommands_tables : ∀ row ∈ permCommands,
    (∀ p ∈ row.2.1, 1 ≤ p ∧ p ≤ row.2.2.1) ∧ row.2.2.1 ∈ row.2.1 ∧ row.2.1.length = row.2.2.2 ∧ row.2.2.2 < 2 ^ 16 := by
  decide

/-- R67 to R72: what a PERM command answers with an operand its table can select from. -/
theorem exec_perm_of_le {i : Instr} {T : PermTable} {bound len : Nat} (hrow : (i, T, bound, len) ∈ permCommands)
    {s : State} (h : bound ≤ s.a.length) : exec i s = .next (succeed { s with q := select s.a T }) := by
  obtain ⟨hentries, hbound, _⟩ := permCommands_tables _ hrow
  rw [exec_of_mem_permCommands _ hrow]
  exact (permCommand_cases hentries hbound s).elim (fun ⟨hlt, _⟩ => absurd h (Nat.not_le.mpr hlt)) And.right

/-- R67 to R72: what a PERM command answers with a shorter operand. -/
theorem exec_perm_of_lt {i : Instr} {T : PermTable} {bound len : Nat} (hrow : (i, T, bound, len) ∈ permCommands)
    {s : State} (h : s.a.length < bound) : exec i s = .next (raise .invalidLength .q s) := by
  obtain ⟨hentries, hbound, _⟩ := permCommands_tables _ hrow
  rw [exec_of_mem_permCommands _ hrow]
  exact (permCommand_cases hentries hbound s).elim And.right fun ⟨hle, _⟩ => absurd h (Nat.not_lt.mpr hle)

/-- R113: an error of a command whose result store is `Q`. -/
theorem failsEmptyingQ_of_raise {i : Instr} {err : EngineError} {s : State}
    (h : exec i s = .next (raise err .q s)) : FailsEmptyingQ i err.code s :=
  ⟨raise err .q s, h, raise_q_toEngine err s, raise_statusFails err .q s, rfl, rfl, rfl⟩

/-- Settles O28: the two answers of a PERM command, the result read through the contract of `permute`. -/
theorem permCommandsSelectBits : Obligations.PermCommandsSelectBits := by
  refine ⟨by decide, by decide, by decide, by decide, by decide, by decide, fun i T bound len hrow s =>
    ⟨fun hle => ?_, fun hlt => failsEmptyingQ_of_raise (exec_perm_of_lt hrow hlt)⟩⟩
  obtain ⟨hentries, _, hlen, hword⟩ := permCommands_tables _ hrow
  have hT : ∀ p ∈ T, 1 ≤ p ∧ p ≤ s.a.length := fun p hp => ⟨(hentries p hp).1, (hentries p hp).2.trans hle⟩
  have hq : (select s.a T).length = len := (select_length s.a T).trans hlen
  exact ⟨succeed { s with q := select s.a T }, exec_perm_of_le hrow hle, rfl, permute_ok hT, hq, hlen,
    fun _ _ => select_getElem?_of_inBounds hT, (toNat_word_of_lt (hq.trans_lt hword)).trans hq,
    succeed_statusSucceeds _, succeed_rkv _, rfl, rfl, rfl⟩

end Sys2Proof.Machine
end

section
/-! SUPPORT. The key schedule round by round, and what KSCHED answers with a 64-bit key and with any other
(spec/42_key_schedule.md R73 to R77, R80). -/
namespace Sys2Proof.Machine

/-! ### The key schedule, round by round -/

/-- R75: the table of rotation amounts, by round number. -/
theorem SHIFTS_getD : ∀ r < 16, SHIFTS.getD r 0 = if r + 1 ∈ [1, 2, 9, 16] then 1 else 2 := by decide

/-- R76: one round moves the bit at index `i + n` of the round before to index `i`. -/
theorem keyHalf_succ_getElem? (sh : List Nat) (C : BitSeq) (r : Nat) {i : Nat} (hi : i < C.length) :
    (keyHalf sh C (r + 1))[i]? = (keyHalf sh C r)[(i + sh.getD r 0) % C.length]? := by
  have hlen : (keyHalf sh C r).length = C.length := keyHalf_length sh C r
  rw [keyHalf, rotl_getElem? _ _ _ (hlen ▸ hi), hlen]

/-- R76 with the amounts of R75, for a half of 28 bits. -/
theorem keyHalf_SHIFTS_getElem? {C : BitSeq} (hC : C.length = 28) {r i n : Nat} (hr : r < 16) (hi : i < 28)
    (hn : n = if r + 1 ∈ [1, 2, 9, 16] then 1 else 2) :
    (keyHalf SHIFTS C (r + 1))[i]? = (keyHalf SHIFTS C r)[(i + n) % 28]? := by
  rw [keyHalf_succ_getElem? SHIFTS C r (hC ▸ hi), SHIFTS_getD r hr, ← hn, hC]

/-- R74: the first half of the key's 56 bits. -/
theorem slice_firstHalf (CD : BitSeq) : slice CD 0 28 = CD.take 28 := rfl

/-- R74: the second half of the key's 56 bits. -/
theorem slice_secondHalf {CD : BitSeq} (h : CD.length = 56) : slice CD 28 56 = CD.drop 28 :=
  List.take_of_length_le (by simp [h])

/-- `C_r` of a key (R74, R76). -/
def keyC (key : BitSeq) : Nat → BitSeq := keyHalf SHIFTS ((select key tablePC1).take 28)

/-- `D_r` of a key (R74, R76). -/
def keyD (key : BitSeq) : Nat → BitSeq := keyHalf SHIFTS ((select key tablePC1).drop 28)

theorem take_select_PC1_length (key : BitSeq) : ((select key tablePC1).take 28).length = 28 := by
  rw [List.length_take, select_length]; rfl

theorem drop_select_PC1_length (key : BitSeq) : ((select key tablePC1).drop 28).length = 28 := by
  rw [List.length_drop, select_length]; rfl

@[simp] theorem keyC_length (key : BitSeq) (r : Nat) : (keyC key r).length = 28 :=
  (keyHalf_length SHIFTS _ r).trans (take_select_PC1_length key)

@[simp] theorem keyD_length (key : BitSeq) (r : Nat) : (keyD key r).length = 28 :=
  (keyHalf_length SHIFTS _ r).trans (drop_select_PC1_length key)

/-- R76: the round key of round `r + 1`, from the halves after that round's rotation. -/
theorem roundKeys_getElem? (key : BitSeq) {r : Nat} (hr : r < 16) :
    (roundKeys key)[r]? = some (select (keyC key (r + 1) ++ keyD key (r + 1)) tablePC2) := by
  rw [keyC, keyD, ← slice_firstHalf, ← slice_secondHalf (select_length key tablePC1)]
  exact keyRounds_getElem? SHIFTS _ _ r hr

/-- R76: the compression never fails, because the two halves have the 56 bits that PC2 selects from. -/
theorem permute_PC2_halves (key : BitSeq) (r : Nat) :
    permute (keyC key r ++ keyD key r) tablePC2 = .ok (select (keyC key r ++ keyD key r) tablePC2) := by
  rw [permute_PC2, List.length_append, keyC_length, keyD_length, if_pos (by decide)]

/-- Settles O30: the halves are `keyC` and `keyD`, each round is one rotation of either, and its round key is PC2 of
both. -/
theorem keyScheduleFollowsItsRounds : Obligations.KeyScheduleFollowsItsRounds := by
  refine fun key => ⟨fun hne => if_pos hne, fun hkey => ⟨roundKeys key, select key tablePC1, keyC key, keyD key,
    KS_ok hkey, roundKeys_length key, (permute_PC1 key).trans (if_pos (by omega)), rfl, rfl,
    fun r _ => ⟨keyC_length key r, keyD_length key r⟩, fun r h1 h16 => ?_⟩⟩
  obtain ⟨r, rfl⟩ : ∃ m, r = m + 1 := ⟨r - 1, by omega⟩
  exact ⟨fun i n hi hn => ⟨keyHalf_SHIFTS_getElem? (take_select_PC1_length key) h16 hi hn,
      keyHalf_SHIFTS_getElem? (drop_select_PC1_length key) h16 hi hn⟩,
    _, roundKeys_getElem? key h16, select_length _ tablePC2, permute_PC2_halves key (r + 1)⟩

/-! ### KSCHED -/

/-- R73: the round keys by round number. -/
theorem roundKeys_getElem?_eq_roundKey (key : BitSeq) {r : Nat} (h1 : 1 ≤ r) (h16 : r ≤ 16) :
    (roundKeys key)[r - 1]? = some (roundKey key r) := by
  have hr : r - 1 < (roundKeys key).length := by rw [roundKeys_length]; omega
  rw [roundKey, List.getD_eq_getElem _ _ hr, List.getElem?_eq_getElem hr]

/-- R20, R21: writing the round keys first changes no field of STATUS but RKV. -/
theorem succeed_writeRoundKeys_statusSucceeds (ks : List BitSeq) (s : State) :
    StatusSucceeds s (succeed (writeRoundKeys ks s)) := by
  obtain ⟨hcode, hsticky, hreserved⟩ := succeed_statusSucceeds (writeRoundKeys ks s)
  exact ⟨hcode, hsticky.trans (estickyOf_setRkv _ _), hreserved.trans (reservedOf_setRkv _ _)⟩

/-- R20: a command that ends by writing a 64-bit key's round keys leaves them valid in the round-key file. -/
theorem succeed_writeRoundKeys_holdsRoundKeys {key : BitSeq} (hkey : key.length = 64) (s : State) :
    HoldsRoundKeys (succeed (writeRoundKeys (roundKeys key) s)) key := by
  refine ⟨(succeed_rkv _).trans (rkvOf_setRkv _ _), roundKeys key, KS_ok hkey, roundKeys_length key,
    fun r h1 h16 => ?_⟩
  rw [rkBits_congr (succeed_rk _), writeRoundKeys_roundKey key h1 h16]
  exact roundKeys_getElem?_eq_roundKey key h1 h16

/-- R113: an error of a command that has no result store. -/
theorem failsKeepingStores_of_raise {i : Instr} {err : EngineError} {s : State}
    (h : exec i s = .next (raise err .nothing s)) : FailsKeepingStores i err.code s :=
  ⟨raise err .nothing s, h, raise_nothing_toEngine err s, raise_statusFails err .nothing s, rfl, rfl, rfl⟩

theorem exec_ksched_of_eq {s : State} (h : s.k.length = 64) :
    exec .ksched s = .next (succeed (writeRoundKeys (roundKeys s.k) s)) :=
  (execKsched_cases s).elim (fun ⟨hne, _⟩ => absurd h hne) And.right

theorem exec_ksched_of_ne {s : State} (h : s.k.length ≠ 64) :
    exec .ksched s = .next (raise .invalidKeyLength .nothing s) :=
  (execKsched_cases s).elim And.right fun ⟨heq, _⟩ => absurd heq h

/-- Settles O33: the two answers of KSCHED, the written round-key file read back as `KS` of the key. -/
theorem kschedWritesTheRoundKeys : Obligations.KschedWritesTheRoundKeys :=
  ⟨by decide, fun s => ⟨fun h => ⟨succeed (writeRoundKeys (roundKeys s.k) s), exec_ksched_of_eq h, rfl,
    succeed_writeRoundKeys_holdsRoundKeys h s, succeed_writeRoundKeys_statusSucceeds _ s, rfl, rfl, rfl⟩,
  fun h => failsKeepingStores_of_raise (exec_ksched_of_ne h)⟩⟩

end Sys2Proof.Machine
end

section
/-! SUPPORT. The Feistel round function step by step, and what FRND answers (spec/43_feistel_round.md R82 to R96). -/
namespace Sys2Proof.Machine

/-! ### The substitution layer -/

/-- Piece `i` of pieces of one length laid end to end. -/
theorem flatMap_drop_take {α : Type} {f : α → BitSeq} {k : Nat} (hf : ∀ a, (f a).length = k) {l : List α} {i : Nat}
    {a : α} (h : l[i]? = some a) : ((l.flatMap f).drop (k * i)).take k = f a := by
  induction l generalizing i with
  | nil => simp at h
  | cons b l ih =>
    rw [List.flatMap_cons]
    cases i with
    | zero =>
      obtain rfl : b = a := by simpa using h
      exact List.take_left' (hf b)
    | succ i =>
      rw [Nat.mul_succ, Nat.add_comm, ← List.drop_drop, List.drop_left' (hf b)]
      exact ih h

/-- R93: four bits of the layer for each nibble, in order. -/
theorem sboxLayer_drop_take (Y : BitSeq) {i : Nat} (hi : i < 8) :
    ((sboxLayer Y).drop (4 * i)).take 4 = sboxNibble Y i :=
  flatMap_drop_take (sboxNibble_length Y) (List.getElem?_range hi)

/-- R93: group `i` of a sequence. -/
theorem slice_group (Y : BitSeq) (i : Nat) : slice Y (6 * i) (6 * i + 6) = (Y.drop (6 * i)).take 6 := by
  rw [slice, Nat.add_sub_cancel_left]

/-- R84: the selectors, for a group given bit by bit. -/
theorem sboxNibble_of_group {Y : BitSeq} {i : Nat} {g0 g1 g2 g3 g4 g5 : Bool}
    (h : (Y.drop (6 * i)).take 6 = [g0, g1, g2, g3, g4, g5]) :
    sboxNibble Y i =
      bitsN 4 (SBox i (2 * g0.toNat + g5.toNat) (8 * g1.toNat + 4 * g2.toNat + 2 * g3.toNat + g4.toNat)) := by
  rw [sboxNibble, slice_group, h]
  rfl

theorem exists_bits_of_length_six {g : BitSeq} (h : g.length = 6) :
    ∃ g0 g1 g2 g3 g4 g5, g = [g0, g1, g2, g3, g4, g5] := by
  match g, h with
  | [g0, g1, g2, g3, g4, g5], _ => exact ⟨g0, g1, g2, g3, g4, g5, rfl⟩

/-- Settles O34: nibble `i` of the layer is `sboxNibble`, whose group has six bits because 48 bits make eight groups. -/
theorem substitutionLooksUpEachGroup : Obligations.SubstitutionLooksUpEachGroup := by
  refine fun Y hY => ⟨sboxLayer_length Y, fun i hi => ?_⟩
  have hlen : ((Y.drop (6 * i)).take 6).length = 6 := by rw [List.length_take, List.length_drop]; omega
  obtain ⟨g0, g1, g2, g3, g4, g5, hg⟩ := exists_bits_of_length_six hlen
  exact ⟨g0, g1, g2, g3, g4, g5, hg, (sboxLayer_drop_take Y hi).trans (sboxNibble_of_group hg)⟩

/-! ### The mangler -/

/-- Settles O36: neither permutation fails, E on a half-block and P on the 32 bits of the substitution layer. -/
theorem manglerIsItsFourSteps : Obligations.ManglerIsItsFourSteps := by
  intro R K hR _
  have hE : permute R tableE = .ok (select R tableE) := (permute_E R).trans (if_pos hR.ge)
  have hP (Y : BitSeq) : permute (sboxLayer Y) tableP = .ok (select (sboxLayer Y) tableP) :=
    (permute_P _).trans (if_pos (sboxLayer_length Y).ge)
  exact ⟨select R tableE, mangler R K, hE, select_length R tableE, hP _, mangler_length R K, rfl⟩

/-! ### FRND -/

/-- R42, R44: the round number is the second byte of the command word. -/
theorem encode_frnd : ∀ r ≤ 16, encode (.frnd r) = [0x40, BitVec.ofNat 8 r] := by decide

section
variable {r : Nat} {s : State} (h1 : 1 ≤ r) (h16 : r ≤ 16)
include h1 h16

theorem exec_frnd_of_ready (ha : s.a.length = 32) (hr : s.rkv = true) :
    exec (.frnd r) s = .next (succeed { s with q := mangler s.a (s.rkBits r) }) := by
  obtain ⟨hout, _⟩ | ⟨_, hne, _⟩ | ⟨_, _, hnot, _⟩ | ⟨_, _, _, h⟩ := execFrnd_cases r s
  · exact absurd ⟨h1, h16⟩ hout
  · exact absurd ha hne
  · exact absurd (hnot.symm.trans hr) Bool.false_ne_true
  · exact h

theorem exec_frnd_of_length_ne (ha : s.a.length ≠ 32) :
    exec (.frnd r) s = .next (raise .invalidBlockLength .q s) := by
  obtain ⟨hout, _⟩ | ⟨_, _, h⟩ | ⟨_, heq, _⟩ | ⟨_, heq, _⟩ := execFrnd_cases r s
  · exact absurd ⟨h1, h16⟩ hout
  · exact h
  · exact absurd heq ha
  · exact absurd heq ha

theorem exec_frnd_of_not_ready (ha : s.a.length = 32) (hr : s.rkv = false) :
    exec (.frnd r) s = .next (raise .roundKeysNotReady .q s) := by
  obtain ⟨hout, _⟩ | ⟨_, hne, _⟩ | ⟨_, _, _, h⟩ | ⟨_, _, hready, _⟩ := execFrnd_cases r s
  · exact absurd ⟨h1, h16⟩ hout
  · exact absurd ha hne
  · exact h
  · exact absurd (hr.symm.trans hready) Bool.false_ne_true

end

/-- Settles O37: the three answers of FRND with a round number from 1 to 16, and its encoding. -/
theorem frndAppliesTheMangler : Obligations.FrndAppliesTheMangler := fun r s h1 h16 =>
  ⟨encode_frnd r h16,
  fun ha hr => ⟨succeed { s with q := mangler s.a (s.rkBits r) }, exec_frnd_of_ready h1 h16 ha hr, rfl, rfl,
    congrArg (BitVec.ofNat 16) (mangler_length s.a (s.rkBits r)), succeed_statusSucceeds _, succeed_rkv _,
    rfl, rfl, rfl⟩,
  fun ha => failsEmptyingQ_of_raise (exec_frnd_of_length_ne h1 h16 ha),
  fun ha hr => failsEmptyingQ_of_raise (exec_frnd_of_not_ready h1 h16 ha hr)⟩

end Sys2Proof.Machine
end

section
/-! SUPPORT. The block cipher round by round, and what ENCBLK answers (spec/44_block_cipher.md R98 to R104). -/
namespace Sys2Proof.Machine

/-! ### The block cipher, round by round -/

/-- R99: the first half of the 64 permuted bits. -/
theorem take_select_IP_length (P : BitSeq) : ((select P tableIP).take 32).length = 32 := by
  rw [List.length_take, select_length]; rfl

/-- R99: the second half of the 64 permuted bits. -/
theorem drop_select_IP_length (P : BitSeq) : ((select P tableIP).drop 32).length = 32 := by
  rw [List.length_drop, select_length]; rfl

/-- `(L_r, R_r)` of a block under a key (R99, R100). -/
def cipherHalves (P key : BitSeq) : Nat → BitSeq × BitSeq :=
  halves (roundKeys key) ((select P tableIP).take 32, (select P tableIP).drop 32)

/-- R100: one round, under the round key of its number. -/
theorem cipherHalves_succ (P key : BitSeq) (r : Nat) :
    cipherHalves P key (r + 1) = feistelRound (cipherHalves P key r) (roundKey key (r + 1)) := rfl

theorem cipherHalves_widths (P key : BitSeq) (r : Nat) :
    (cipherHalves P key r).1.length = 32 ∧ (cipherHalves P key r).2.length = 32 :=
  halves_widths _ (take_select_IP_length P) (drop_select_IP_length P) r

/-- R99: the block is split where the first 32 bits end. -/
theorem slice_permutedHalves (P : BitSeq) :
    (slice (select P tableIP) 0 32, slice (select P tableIP) 32 64) =
      ((select P tableIP).take 32, (select P tableIP).drop 32) :=
  congrArg (Prod.mk _) (List.take_of_length_le (drop_select_IP_length P).le)

/-- R101: the ciphertext is FP of `R16` before `L16`. -/
theorem desBlock_eq_select_cipherHalves (P key : BitSeq) :
    desBlock (roundKeys key) P = select ((cipherHalves P key 16).2 ++ (cipherHalves P key 16).1) tableFP := by
  rw [desBlock, slice_permutedHalves, feistel_eq_halves, roundKeys_length, cipherHalves]

/-- R101: the final permutation never fails, because the two halves have the 64 bits that FP selects from. -/
theorem permute_FP_cipherHalves (P key : BitSeq) :
    permute ((cipherHalves P key 16).2 ++ (cipherHalves P key 16).1) tableFP = .ok (desBlock (roundKeys key) P) := by
  obtain ⟨hL, hR⟩ := cipherHalves_widths P key 16
  rw [permute_FP, List.length_append, hL, hR, if_pos (by decide), desBlock_eq_select_cipherHalves]

/-- R98: the plaintext's length is tested first. -/
theorem encryptBlock_of_plaintext_length_ne {P : BitSeq} (key : BitSeq) (hP : P.length ≠ 64) :
    encryptBlock P key = .error .invalidBlockLength := if_pos hP

/-- R98: the key's length is tested for a 64-bit plaintext only. -/
theorem encryptBlock_of_key_length_ne {P key : BitSeq} (hP : P.length = 64) (hkey : key.length ≠ 64) :
    encryptBlock P key = .error .invalidKeyLength := by
  rw [encryptBlock, if_neg (not_not.mpr hP), if_pos hkey]

/-- Settles O38: the halves are `cipherHalves`, each round is one `feistelRound` of them under its round key, and the
ciphertext is FP of the last two, `R16` first. -/
theorem encryptBlockFollowsItsRounds : Obligations.EncryptBlockFollowsItsRounds := by
  refine fun P key => ⟨encryptBlock_of_plaintext_length_ne key, encryptBlock_of_key_length_ne, fun hP hkey =>
    ⟨select P tableIP, desBlock (roundKeys key) P, roundKeys key, fun r => (cipherHalves P key r).1,
      fun r => (cipherHalves P key r).2, (permute_IP P).trans (if_pos hP.ge), KS_ok hkey, rfl, rfl,
      fun r h1 h16 => ⟨roundKey key r, roundKeys_getElem?_eq_roundKey key h1 h16, ?_⟩,
      permute_FP_cipherHalves P key, encryptBlock_ok hP hkey, desBlock_length _ P⟩⟩
  obtain ⟨r, rfl⟩ : ∃ m, r = m + 1 := ⟨r - 1, by omega⟩
  exact ⟨congrArg Prod.fst (cipherHalves_succ P key r), congrArg Prod.snd (cipherHalves_succ P key r),
    (cipherHalves_widths P key (r + 1)).2⟩

/-! ### ENCBLK -/

section
variable {s : State}

theorem exec_encblk_of_eq (ha : s.a.length = 64) (hk : s.k.length = 64) :
    exec .encblk s =
      .next (succeed (writeRoundKeys (roundKeys s.k) { s with q := desBlock (roundKeys s.k) s.a })) := by
  obtain ⟨hne, _⟩ | ⟨_, hne, _⟩ | ⟨_, _, h⟩ := execEncblk_cases s
  · exact absurd ha hne
  · exact absurd hk hne
  · exact h

theorem exec_encblk_of_block_length_ne (ha : s.a.length ≠ 64) :
    exec .encblk s = .next (raise .invalidBlockLength .q s) := by
  obtain ⟨_, h⟩ | ⟨heq, _⟩ | ⟨heq, _⟩ := execEncblk_cases s
  · exact h
  · exact absurd heq ha
  · exact absurd heq ha

theorem exec_encblk_of_key_length_ne (ha : s.a.length = 64) (hk : s.k.length ≠ 64) :
    exec .encblk s = .next (raise .invalidKeyLength .q s) := by
  obtain ⟨hne, _⟩ | ⟨_, _, h⟩ | ⟨_, heq, _⟩ := execEncblk_cases s
  · exact absurd ha hne
  · exact h
  · exact absurd heq hk

end

/-- Settles O39: the three answers of ENCBLK, the ciphertext read as `encryptBlock` of the block and the key, and the
written round-key file as `KS` of the key. -/
theorem encblkEncryptsTheBlock : Obligations.EncblkEncryptsTheBlock :=
  ⟨by decide, fun s =>
    ⟨fun ha hk => ⟨succeed (writeRoundKeys (roundKeys s.k) { s with q := desBlock (roundKeys s.k) s.a }),
      exec_encblk_of_eq ha hk, rfl, encryptBlock_ok ha hk, congrArg (BitVec.ofNat 16) (desBlock_length _ s.a),
      succeed_writeRoundKeys_holdsRoundKeys hk _, succeed_writeRoundKeys_statusSucceeds _ _, rfl, rfl, rfl⟩,
    fun ha => failsEmptyingQ_of_raise (exec_encblk_of_block_length_ne ha),
    fun ha hk => failsEmptyingQ_of_raise (exec_encblk_of_key_length_ne ha hk)⟩⟩

end Sys2Proof.Machine
end

section
/-! SUPPORT. The block modes Block by Block, and what ENCECB and ENCCBC answer (spec/45_block_modes.md R105 to R112). -/
namespace Sys2Proof.Machine

/-! ### Block `i` of a ciphertext -/

/-- The Block numbers before `i`, then `i`, then those after it. -/
theorem blockNumbers_split {msg : ByteSeq} {i : Nat} (h1 : 1 ≤ i) (hi : i ≤ nblocks msg) :
    blockNumbers msg = List.range' 1 (i - 1) ++ i :: List.range' (i + 1) (nblocks msg - i) := by
  have hcount : nblocks msg = (i - 1) + ((nblocks msg - i) + 1) := by omega
  rw [blockNumbers_eq, hcount, ← List.range'_append_1, List.range'_succ]
  congr 3 <;> omega

/-- R108: of 8-byte pieces laid end to end in the order of the message's Blocks, piece `i` is at byte `8·(i − 1)`. -/
theorem flatMap_blockNumbers_drop_take {f : Nat → ByteSeq} (hf : ∀ i, (f i).length = 8) {msg : ByteSeq} {i : Nat}
    (h1 : 1 ≤ i) (hi : i ≤ nblocks msg) : (((blockNumbers msg).flatMap f).drop (8 * (i - 1))).take 8 = f i := by
  have hbefore : ((List.range' 1 (i - 1)).flatMap f).length = 8 * (i - 1) := by
    rw [flatMap_blocks_length f hf, List.length_range']
  rw [blockNumbers_split h1 hi, List.flatMap_append, List.flatMap_cons, List.drop_left' hbefore, List.take_left' (hf i)]

/-- R107: Block `i` of an ECB ciphertext. -/
theorem ecbBytes_drop_take {msg : ByteSeq} (key : BitSeq) {i : Nat} (h1 : 1 ≤ i) (hi : i ≤ nblocks msg) :
    ((ecbBytes msg key).drop (8 * (i - 1))).take 8 = bytesOfBits (desBlock (roundKeys key) (messageBlock msg i)) :=
  flatMap_blockNumbers_drop_take (fun _ => blockBytes_length _ _) h1 hi

/-- R109: Block `i` of a CBC ciphertext. -/
theorem cbcBytes_drop_take {msg : ByteSeq} (key : BitSeq) {iv : BitSeq} (hv : iv.length = 64) {i : Nat} (h1 : 1 ≤ i)
    (hi : i ≤ nblocks msg) :
    ((cbcBytes msg key iv).drop (8 * (i - 1))).take 8 = bytesOfBits (cbcChain (roundKeys key) msg iv i) :=
  flatMap_blockNumbers_drop_take (fun j => bytesOfBits_length _ 8 (cbcChain_length _ _ hv j)) h1 hi

/-- R109: a chained Block is `encryptBlock` of the message Block XORed with the chained Block before it. -/
theorem encryptBlock_xor_cbcChain (msg : ByteSeq) {key iv : BitSeq} (hk : key.length = 64) (hv : iv.length = 64)
    {i : Nat} (h1 : 1 ≤ i) :
    encryptBlock (xorBits (messageBlock msg i) (cbcChain (roundKeys key) msg iv (i - 1))) key =
      .ok (cbcChain (roundKeys key) msg iv i) := by
  obtain ⟨n, rfl⟩ : ∃ n, i = n + 1 := ⟨i - 1, by omega⟩
  refine encryptBlock_ok ?_ hk
  rw [xorBits_length, messageBlock_length, cbcChain_length _ _ hv, Nat.min_self]

/-! ### ENCECB and ENCCBC -/

/-- R113: an error of a command whose result store is CPH. -/
theorem failsEmptyingCph_of_raise {i : Instr} {err : EngineError} {s : State}
    (h : exec i s = .next (raise err .cph s)) : FailsEmptyingCph i err.code s :=
  ⟨raise err .cph s, h, raise_cph_toEngine err s, raise_statusFails err .cph s, rfl, rfl, rfl⟩

section
variable {s : State}

theorem exec_encecb_of_message_short (hm : s.msg.length < 8) :
    exec .encecb s = .next (raise .messageTooShort .cph s) := if_pos hm

theorem exec_encecb_of_key_length_ne (hm : 8 ≤ s.msg.length) (hk : s.k.length ≠ 64) :
    exec .encecb s = .next (raise .invalidKeyLength .cph s) := by
  obtain ⟨hlt, _⟩ | ⟨_, _, h⟩ | ⟨_, heq, _⟩ := execEncecb_cases s
  · exact absurd hm hlt.not_ge
  · exact h
  · exact absurd heq hk

theorem exec_encecb_of_eq (hm : 8 ≤ s.msg.length) (hk : s.k.length = 64) :
    exec .encecb s =
      .next (succeed (writeRoundKeys (roundKeys s.k) { s with cph := ecbBytes s.msg s.k })) := by
  obtain ⟨hlt, _⟩ | ⟨_, hne, _⟩ | ⟨_, _, h⟩ := execEncecb_cases s
  · exact absurd hm hlt.not_ge
  · exact absurd hk hne
  · exact h

theorem exec_enccbc_of_message_short (hm : s.msg.length < 8) :
    exec .enccbc s = .next (raise .messageTooShort .cph s) := if_pos hm

theorem exec_enccbc_of_key_length_ne (hm : 8 ≤ s.msg.length) (hk : s.k.length ≠ 64) :
    exec .enccbc s = .next (raise .invalidKeyLength .cph s) := by
  obtain ⟨hlt, _⟩ | ⟨_, _, h⟩ | ⟨_, heq, _⟩ | ⟨_, heq, _⟩ := execEnccbc_cases s
  · exact absurd hm hlt.not_ge
  · exact h
  · exact absurd heq hk
  · exact absurd heq hk

theorem exec_enccbc_of_iv_length_ne (hm : 8 ≤ s.msg.length) (hk : s.k.length = 64) (hv : s.v.length ≠ 64) :
    exec .enccbc s = .next (raise .invalidIVLength .cph s) := by
  obtain ⟨hlt, _⟩ | ⟨_, hne, _⟩ | ⟨_, _, _, h⟩ | ⟨_, _, heq, _⟩ := execEnccbc_cases s
  · exact absurd hm hlt.not_ge
  · exact absurd hk hne
  · exact h
  · exact absurd heq hv

theorem exec_enccbc_of_eq (hm : 8 ≤ s.msg.length) (hk : s.k.length = 64) (hv : s.v.length = 64) :
    exec .enccbc s =
      .next (succeed (writeRoundKeys (roundKeys s.k) { s with cph := cbcBytes s.msg s.k s.v })) := by
  obtain ⟨hlt, _⟩ | ⟨_, hne, _⟩ | ⟨_, _, hne, _⟩ | ⟨_, _, _, h⟩ := execEnccbc_cases s
  · exact absurd hm hlt.not_ge
  · exact absurd hk hne
  · exact absurd hv hne
  · exact h

end

/-- Settles O43: the three answers of ENCECB, and each Block of the written ciphertext read as `encryptBlock` of the
message's Block. -/
theorem encecbEncryptsEveryBlock : Obligations.EncecbEncryptsEveryBlock :=
  ⟨by decide, fun s =>
    ⟨fun hm hk => ⟨succeed (writeRoundKeys (roundKeys s.k) { s with cph := ecbBytes s.msg s.k }),
      exec_encecb_of_eq hm hk, rfl, ecbBytes_length s.msg s.k, ecb_ok hm hk,
      fun i h1 hi => ⟨desBlock (roundKeys s.k) (messageBlock s.msg i),
        encryptBlock_ok (messageBlock_length s.msg i) hk, ecbBytes_drop_take s.k h1 hi⟩,
      succeed_writeRoundKeys_holdsRoundKeys hk _, succeed_writeRoundKeys_statusSucceeds _ _, rfl, rfl, rfl⟩,
    fun hm => failsEmptyingCph_of_raise (exec_encecb_of_message_short hm),
    fun hm hk => failsEmptyingCph_of_raise (exec_encecb_of_key_length_ne hm hk)⟩⟩

/-- Settles O44: the four answers of ENCCBC, the chain being `cbcChain` of the message from `V`, and each Block of the
written ciphertext its Block of the chain. -/
theorem enccbcChainsTheBlocks : Obligations.EnccbcChainsTheBlocks :=
  ⟨by decide, fun s =>
    ⟨fun hm hk hv => ⟨succeed (writeRoundKeys (roundKeys s.k) { s with cph := cbcBytes s.msg s.k s.v }),
      cbcChain (roundKeys s.k) s.msg s.v,
      exec_enccbc_of_eq hm hk hv, rfl, cbcBytes_length s.msg s.k hv, cbc_ok hm hk hv, rfl,
      fun i h1 hi => ⟨encryptBlock_xor_cbcChain s.msg hk hv h1, cbcBytes_drop_take s.k hv h1 hi⟩,
      succeed_writeRoundKeys_holdsRoundKeys hk _, succeed_writeRoundKeys_statusSucceeds _ _, rfl, rfl, rfl⟩,
    fun hm => failsEmptyingCph_of_raise (exec_enccbc_of_message_short hm),
    fun hm hk => failsEmptyingCph_of_raise (exec_enccbc_of_key_length_ne hm hk),
    fun hm hk hv => failsEmptyingCph_of_raise (exec_enccbc_of_iv_length_ne hm hk hv)⟩⟩

end Sys2Proof.Machine
end

section
/-! SUPPORT. How a legal command ends (spec/60_exceptions.md R113 to R126): which error is the first to apply, and what
the command leaves in its result store. -/
namespace Sys2Proof.Machine

/-! ### Illegal commands -/

/-- Settles O8: the step of an illegal encoding, whatever makes it illegal, is the rejection that the illegal loads and
controls share. -/
theorem illegalCommandChangesOnlyStatus : Obligations.IllegalCommandChangesOnlyStatus :=
  fun _ why _ hdec => rejected_of_decode_illegal ⟨why, hdec⟩

/-! ### The two ends of a legal command -/

/-- The error a command with a legal encoding raises: the first that applies, in the order of the command's own tests
(R115 to R119, R121, R123). -/
def raisedError (s : State) : Instr → Option EngineError
  | .nop => none
  | .clr => none
  | .lda _ => none
  | .ldk _ => none
  | .ldv _ => none
  | .ldm _ => none
  | .permIp => if s.a.length < 64 then some .invalidLength else none
  | .permFp => if s.a.length < 64 then some .invalidLength else none
  | .permPc1 => if s.a.length < 63 then some .invalidLength else none
  | .permPc2 => if s.a.length < 56 then some .invalidLength else none
  | .permE => if s.a.length < 32 then some .invalidLength else none
  | .permP => if s.a.length < 32 then some .invalidLength else none
  | .ksched => if s.k.length ≠ 64 then some .invalidKeyLength else none
  | .frnd _ =>
    if s.a.length ≠ 32 then some .invalidBlockLength
    else if rkvOf s.status = false then some .roundKeysNotReady
    else none
  | .encblk =>
    if s.a.length ≠ 64 then some .invalidBlockLength
    else if s.k.length ≠ 64 then some .invalidKeyLength
    else none
  | .encecb =>
    if s.msg.length < 8 then some .messageTooShort
    else if s.k.length ≠ 64 then some .invalidKeyLength
    else none
  | .enccbc =>
    if s.msg.length < 8 then some .messageTooShort
    else if s.k.length ≠ 64 then some .invalidKeyLength
    else if s.v.length ≠ 64 then some .invalidIVLength
    else none

/-- The full length of a command's result (R126): bits of `Q`, bytes of `CPH`, 0 without a result store. -/
def fullLength (s : State) : Instr → Nat
  | .nop => 0
  | .clr => 0
  | .lda _ => 0
  | .ldk _ => 0
  | .ldv _ => 0
  | .ldm _ => 0
  | .permIp => 64
  | .permFp => 64
  | .permPc1 => 56
  | .permPc2 => 48
  | .permE => 48
  | .permP => 32
  | .ksched => 0
  | .frnd _ => 32
  | .encblk => 64
  | .encecb => 8 * nblocks s.msg
  | .enccbc => 8 * nblocks s.msg

/-- How much a result store holds, in the units of `fullLength`. -/
def ResultStore.fill (t : State) : ResultStore → Nat
  | .q => t.q.length
  | .cph => t.cph.length
  | .nothing => 0

/-- A command run on `s` has ended in `t` by raising its first error, or in a success with a full result (R113, R126).
`raisesOrFills_of_exec` ties this to `exec`. -/
def RaisesOrFills (i : Instr) (s t : State) : Prop :=
  (∃ err, raisedError s i = some err ∧ t = raise err (resultStore i) s) ∨
  (raisedError s i = none ∧ t.ecode = 0 ∧ (resultStore i).fill t = fullLength s i)

/-- The rows of R67 to R72 agree with R113, R119 and R126 on the PERM commands. -/
theorem permCommands_errors_and_results (s : State) : ∀ row ∈ permCommands,
    resultStore row.1 = .q ∧ fullLength s row.1 = row.2.2.2 ∧
      raisedError s row.1 = if s.a.length < row.2.2.1 then some .invalidLength else none := by
  simp [permCommands, resultStore, fullLength, raisedError]

theorem perm_raisesOrFills {i : Instr} {T : PermTable} {bound len : Nat} (hrow : (i, T, bound, len) ∈ permCommands)
    (s : State) : ∃ t, exec i s = .next t ∧ RaisesOrFills i s t := by
  obtain ⟨hstore, hfull, herr⟩ := permCommands_errors_and_results s _ hrow
  obtain ⟨_, _, hlen, _⟩ := permCommands_tables _ hrow
  unfold RaisesOrFills
  rw [hstore, hfull, herr]
  by_cases h : s.a.length < bound
  · exact ⟨_, exec_perm_of_lt hrow h, .inl ⟨_, if_pos h, rfl⟩⟩
  · exact ⟨_, exec_perm_of_le hrow (Nat.not_lt.mp h), .inr ⟨if_neg h, ecodeOf_setEcode _ _,
      (select_length s.a T).trans hlen⟩⟩

theorem ksched_raisesOrFills (s : State) : ∃ t, exec .ksched s = .next t ∧ RaisesOrFills .ksched s t := by
  obtain ⟨hk, h⟩ | ⟨hk, h⟩ := execKsched_cases s
  · exact ⟨_, h, .inl ⟨_, if_pos hk, rfl⟩⟩
  · exact ⟨_, h, .inr ⟨if_neg (not_not.mpr hk), ecodeOf_setEcode _ _, rfl⟩⟩

theorem frnd_raisesOrFills {r : Nat} (h1 : 1 ≤ r) (h16 : r ≤ 16) (s : State) :
    ∃ t, exec (.frnd r) s = .next t ∧ RaisesOrFills (.frnd r) s t := by
  obtain ⟨hr, _⟩ | ⟨_, ha, h⟩ | ⟨_, ha, hkeys, h⟩ | ⟨_, ha, hkeys, h⟩ := execFrnd_cases r s
  · exact absurd ⟨h1, h16⟩ hr
  · exact ⟨_, h, .inl ⟨_, if_pos ha, rfl⟩⟩
  · exact ⟨_, h, .inl ⟨_, (if_neg (not_not.mpr ha)).trans (if_pos hkeys), rfl⟩⟩
  · rw [rkv_eq] at hkeys
    exact ⟨_, h, .inr ⟨by simp [raisedError, ha, hkeys], ecodeOf_setEcode _ _, mangler_length _ _⟩⟩

theorem encblk_raisesOrFills (s : State) : ∃ t, exec .encblk s = .next t ∧ RaisesOrFills .encblk s t := by
  obtain ⟨ha, h⟩ | ⟨ha, hk, h⟩ | ⟨ha, hk, h⟩ := execEncblk_cases s
  · exact ⟨_, h, .inl ⟨_, if_pos ha, rfl⟩⟩
  · exact ⟨_, h, .inl ⟨_, (if_neg (not_not.mpr ha)).trans (if_pos hk), rfl⟩⟩
  · exact ⟨_, h, .inr ⟨by simp [raisedError, ha, hk], ecodeOf_setEcode _ _, desBlock_length _ _⟩⟩

theorem encecb_raisesOrFills (s : State) : ∃ t, exec .encecb s = .next t ∧ RaisesOrFills .encecb s t := by
  obtain ⟨hm, h⟩ | ⟨hm, hk, h⟩ | ⟨hm, hk, h⟩ := execEncecb_cases s
  · exact ⟨_, h, .inl ⟨_, if_pos hm, rfl⟩⟩
  · exact ⟨_, h, .inl ⟨_, (if_neg hm.not_gt).trans (if_pos hk), rfl⟩⟩
  · exact ⟨_, h, .inr ⟨by simp [raisedError, hm.not_gt, hk], ecodeOf_setEcode _ _, ecbBytes_length _ _⟩⟩

theorem enccbc_raisesOrFills (s : State) : ∃ t, exec .enccbc s = .next t ∧ RaisesOrFills .enccbc s t := by
  obtain ⟨hm, h⟩ | ⟨hm, hk, h⟩ | ⟨hm, hk, hv, h⟩ | ⟨hm, hk, hv, h⟩ := execEnccbc_cases s
  · exact ⟨_, h, .inl ⟨_, if_pos hm, rfl⟩⟩
  · exact ⟨_, h, .inl ⟨_, (if_neg hm.not_gt).trans (if_pos hk), rfl⟩⟩
  · exact ⟨_, h, .inl ⟨.invalidIVLength, by simp [raisedError, hm.not_gt, hk, hv], rfl⟩⟩
  · exact ⟨_, h, .inr ⟨by simp [raisedError, hm.not_gt, hk, hv], ecodeOf_setEcode _ _, cbcBytes_length _ _ hv⟩⟩

/-- R113, R122, R126, for every command with a legal encoding. -/
theorem raisesOrFills_of_wellFormed {i : Instr} (hwf : i.WellFormed) (s : State) :
    ∃ t, exec i s = .next t ∧ RaisesOrFills i s t := by
  cases i with
  | nop => exact ⟨_, rfl, .inr ⟨rfl, ecodeOf_setEcode _ _, rfl⟩⟩
  | clr => exact ⟨_, rfl, .inr ⟨rfl, rfl, rfl⟩⟩
  | lda S => exact ⟨_, exec_lda_of_le s (of_decide_eq_true hwf), .inr ⟨rfl, ecodeOf_setEcode _ _, rfl⟩⟩
  | ldk S => exact ⟨_, exec_ldk_of_le s (of_decide_eq_true hwf), .inr ⟨rfl, ecodeOf_setEcode _ _, rfl⟩⟩
  | ldv S => exact ⟨_, exec_ldv_of_le s (of_decide_eq_true hwf), .inr ⟨rfl, ecodeOf_setEcode _ _, rfl⟩⟩
  | ldm P => exact ⟨_, exec_ldm_of_le s (of_decide_eq_true hwf), .inr ⟨rfl, ecodeOf_setEcode _ _, rfl⟩⟩
  | permIp => exact perm_raisesOrFills (List.mem_of_getElem? (i := 0) rfl) s
  | permFp => exact perm_raisesOrFills (List.mem_of_getElem? (i := 1) rfl) s
  | permPc1 => exact perm_raisesOrFills (List.mem_of_getElem? (i := 2) rfl) s
  | permPc2 => exact perm_raisesOrFills (List.mem_of_getElem? (i := 3) rfl) s
  | permE => exact perm_raisesOrFills (List.mem_of_getElem? (i := 4) rfl) s
  | permP => exact perm_raisesOrFills (List.mem_of_getElem? (i := 5) rfl) s
  | ksched => exact ksched_raisesOrFills s
  | frnd r =>
    obtain ⟨h1, h16⟩ : 1 ≤ r ∧ r ≤ 16 := of_decide_eq_true hwf
    exact frnd_raisesOrFills h1 h16 s
  | encblk => exact encblk_raisesOrFills s
  | encecb => exact encecb_raisesOrFills s
  | enccbc => exact enccbc_raisesOrFills s

theorem raisesOrFills_of_exec {i : Instr} {s t : State} (hwf : i.WellFormed) (hexec : exec i s = .next t) :
    RaisesOrFills i s t := by
  obtain ⟨t', h, hends⟩ := raisesOrFills_of_wellFormed hwf s
  rwa [Host.Outcome.next.inj (hexec.symm.trans h)]

/-! ### ECODE tells which error was raised -/

theorem code_injective : Function.Injective EngineError.code := by
  intro err err'
  cases err <;> cases err' <;> decide

theorem code_ne_zero (err : EngineError) : err.code ≠ 0 := by cases err <;> decide

theorem raise_ecode (err : EngineError) (store : ResultStore) (s : State) : (raise err store s).ecode = err.code :=
  (raise_statusFails err store s).1

section
variable {i : Instr} {s t : State}

/-- R114: the code in ECODE is that of the error raised. -/
theorem ecode_eq_code_iff (hends : RaisesOrFills i s t) (err : EngineError) :
    t.ecode = err.code ↔ raisedError s i = some err := by
  obtain ⟨err', herr, rfl⟩ | ⟨hnone, hcode, _⟩ := hends
  · rw [raise_ecode, herr, code_injective.eq_iff, Option.some_inj]
  · rw [hcode, hnone]
    exact iff_of_false (code_ne_zero err).symm nofun

theorem ecode_le_seven (hends : RaisesOrFills i s t) : t.ecode.toNat ≤ 7 := by
  obtain ⟨err, _, rfl⟩ | ⟨_, hcode, _⟩ := hends
  · rw [raise_ecode]
    cases err <;> decide
  · rw [hcode]
    decide

theorem raisedError_ne_illegalCommand : raisedError s i ≠ some .illegalCommand := by
  cases i <;> simp [raisedError, ite_eq_iff]

theorem raisedError_eq_invalidBlockLength_iff : raisedError s i = some .invalidBlockLength ↔
    (i = .encblk ∧ s.a.length ≠ 64) ∨ ((∃ r, i = .frnd r) ∧ s.a.length ≠ 32) := by
  cases i <;> simp [raisedError, ite_eq_iff]

theorem raisedError_eq_invalidKeyLength_iff : raisedError s i = some .invalidKeyLength ↔
    (i = .ksched ∧ s.k.length ≠ 64) ∨ (i = .encblk ∧ s.a.length = 64 ∧ s.k.length ≠ 64) ∨
      ((i = .encecb ∨ i = .enccbc) ∧ 8 ≤ s.msg.length ∧ s.k.length ≠ 64) := by
  cases i <;> simp [raisedError, ite_eq_iff]

theorem raisedError_eq_invalidIVLength_iff : raisedError s i = some .invalidIVLength ↔
    i = .enccbc ∧ 8 ≤ s.msg.length ∧ s.k.length = 64 ∧ s.v.length ≠ 64 := by
  cases i <;> simp [raisedError, ite_eq_iff]

theorem raisedError_eq_messageTooShort_iff : raisedError s i = some .messageTooShort ↔
    (i = .encecb ∨ i = .enccbc) ∧ s.msg.length < 8 := by
  cases i <;> simp [raisedError, ite_eq_iff]

theorem raisedError_eq_invalidLength_iff : raisedError s i = some .invalidLength ↔
    ∃ T bound len, (i, T, bound, len) ∈ permCommands ∧ s.a.length < bound := by
  cases i <;> simp [raisedError, ite_eq_iff, permCommands]

theorem raisedError_eq_roundKeysNotReady_iff : raisedError s i = some .roundKeysNotReady ↔
    (∃ r, i = .frnd r) ∧ s.a.length = 32 ∧ s.rkv = false := by
  cases i <;> simp [raisedError, ite_eq_iff]

end

/-- Settles O53: a code in ECODE is the raised error's, and `raisedError` answers each error on the named commands and
operands only. -/
theorem eachErrorIsRaisedExactlyWhen : Obligations.EachErrorIsRaisedExactlyWhen := by
  intro i s t hwf hexec
  have hends := raisesOrFills_of_exec hwf hexec
  have hcode := ecode_eq_code_iff hends
  exact ⟨ecode_le_seven hends, (hcode .illegalCommand).not.mpr raisedError_ne_illegalCommand,
    (hcode .invalidBlockLength).trans raisedError_eq_invalidBlockLength_iff,
    (hcode .invalidKeyLength).trans raisedError_eq_invalidKeyLength_iff,
    (hcode .invalidIVLength).trans raisedError_eq_invalidIVLength_iff,
    (hcode .messageTooShort).trans raisedError_eq_messageTooShort_iff,
    (hcode .invalidLength).trans raisedError_eq_invalidLength_iff,
    (hcode .roundKeysNotReady).trans raisedError_eq_roundKeysNotReady_iff⟩

/-! ### A result is full or empty -/

theorem fill_raise (err : EngineError) (store : ResultStore) (s : State) : store.fill (raise err store s) = 0 := by
  cases store <;> simp [ResultStore.fill]

theorem full_or_empty_of_length {α : Type} {l : List α} {p : Prop} [Decidable p] {n : Nat}
    (h : l.length = if p then n else 0) : if p then l.length = n else l = [] := by
  by_cases hp : p
  · rwa [if_pos hp] at h ⊢
  · rw [if_neg hp] at h ⊢
    exact List.length_eq_zero_iff.mp h

section
variable {i : Instr} {s t : State} (hends : RaisesOrFills i s t)
include hends

theorem fill_eq_fullLength_or_zero : (resultStore i).fill t = if t.ecode = 0 then fullLength s i else 0 := by
  obtain ⟨err, _, rfl⟩ | ⟨_, hcode, hfill⟩ := hends
  · rw [raise_ecode, if_neg (code_ne_zero err), fill_raise]
  · rw [if_pos hcode, hfill]

/-- R126 for the commands whose result store is `Q`. -/
theorem q_full_or_empty (hstore : resultStore i = .q) :
    if t.ecode = 0 then t.q.length = fullLength s i else t.q = [] := by
  have hfill := fill_eq_fullLength_or_zero hends
  rw [hstore] at hfill
  exact full_or_empty_of_length hfill

theorem eight_le_of_ecode_zero (hi : i = .encecb ∨ i = .enccbc) (hcode : t.ecode = 0) : 8 ≤ s.msg.length := by
  by_contra hshort
  have hfour := (ecode_eq_code_iff hends _).mpr (raisedError_eq_messageTooShort_iff.mpr ⟨hi, Nat.not_le.mp hshort⟩)
  exact code_ne_zero _ (hfour.symm.trans hcode)

/-- R126 for the commands whose result store is CPH; a message that is encrypted has a Block. -/
theorem cph_full_or_empty (hi : i = .encecb ∨ i = .enccbc) :
    if t.ecode = 0 then t.cph.length = 8 * ((s.msg.length + 7) / 8) ∧ t.cph ≠ [] else t.cph = [] := by
  have hfill : t.cph.length = if t.ecode = 0 then 8 * ((s.msg.length + 7) / 8) else 0 := by
    obtain rfl | rfl := hi <;> exact fill_eq_fullLength_or_zero hends
  have hcph := full_or_empty_of_length hfill
  by_cases hcode : t.ecode = 0
  · rw [if_pos hcode] at hcph ⊢
    have hlong := eight_le_of_ecode_zero hends hi hcode
    exact ⟨hcph, List.ne_nil_of_length_pos (by omega)⟩
  · rwa [if_neg hcode] at hcph ⊢

end

/-- Settles O54: every legal command raises an error or fills its result store, and each of these commands has the
store and the full length the statement names. -/
theorem resultsAreFullOrEmpty : Obligations.ResultsAreFullOrEmpty := by
  intro i s t hwf hexec
  have hends := raisesOrFills_of_exec hwf hexec
  refine ⟨fun T bound len hrow => ?_, ?_, ?_, cph_full_or_empty hends⟩
  · obtain ⟨hstore, hfull, _⟩ := permCommands_errors_and_results s _ hrow
    rw [← show fullLength s i = len from hfull]
    exact q_full_or_empty hends hstore
  · rintro r rfl
    exact q_full_or_empty hends rfl
  · rintro rfl
    exact q_full_or_empty hends rfl

end Sys2Proof.Machine
end

section
/-! SUPPORT. ECB Block by Block in any order (spec/70_reset_and_hazards.md R135). -/
namespace Sys2Proof.Machine

/-- R107: the only ciphertext `ecb` answers is `ecbBytes`; on the other operands it answers an error. -/
theorem eq_ecbBytes_of_ecb_ok {msg out : ByteSeq} {key : BitSeq} (h : ecb msg key = .ok out) :
    out = ecbBytes msg key := by
  unfold ecb at h
  split at h
  · cases h
  · split at h
    · cases h
    · exact (Except.ok.inj h).symm

/-- The loop of ENCECB over the Block numbers in any order, up to the new CLEN: the Blocks do not overlap and cover
the ciphertext, so neither their order nor the earlier contents of CPH can be seen. -/
theorem ecbWrites_take_of_perm (key : BitSeq) (cph : ByteSeq) {msg : ByteSeq} {order : List Nat}
    (horder : order.Perm (blockNumbers msg)) :
    (ecbWrites (roundKeys key) msg cph order).take (8 * nblocks msg) = ecbBytes msg key := by
  rw [ecbWrites_eq]
  exact writeBlocks_any_order _ (fun _ => blockBytes_length _ _) msg cph order fun _ => horder.mem_iff

/-- Settles O45: the writes in the given order leave `ecbBytes`, which is the ciphertext `ecb` answered. -/
theorem ecbOrderIsFree : Obligations.EcbOrderIsFree := by
  intro msg cph out key order hecb horder
  rw [eq_ecbBytes_of_ecb_ok hecb]
  exact ecbWrites_take_of_perm key cph horder

end Sys2Proof.Machine
end

section
/-! SUPPORT. Every command by its ends, each end said once: the state a success leaves, the error a legal command
raises first, and the answer to a command outside every encoding (spec/30_encoding.md R45, spec/60_exceptions.md R113,
R122). -/
namespace Sys2Proof.Machine

/-- The state a command leaves when it raises no error. `exec_of_no_error` ties this to `exec`. -/
def successState (s : State) : Instr → State
  | .nop => succeed s
  | .clr => { s with toEngine := Engine.reset }
  | .lda S => succeed { s with a := S }
  | .ldk S => succeed (clearRoundKeys { s with k := S })
  | .ldv S => succeed { s with v := S }
  | .ldm P => succeed { s with msg := P }
  | .permIp => succeed { s with q := select s.a tableIP }
  | .permFp => succeed { s with q := select s.a tableFP }
  | .permPc1 => succeed { s with q := select s.a tablePC1 }
  | .permPc2 => succeed { s with q := select s.a tablePC2 }
  | .permE => succeed { s with q := select s.a tableE }
  | .permP => succeed { s with q := select s.a tableP }
  | .ksched => succeed (writeRoundKeys (roundKeys s.k) s)
  | .frnd r => succeed { s with q := mangler s.a (s.rkBits r) }
  | .encblk => succeed (writeRoundKeys (roundKeys s.k) { s with q := desBlock (roundKeys s.k) s.a })
  | .encecb => succeed (writeRoundKeys (roundKeys s.k) { s with cph := ecbBytes s.msg s.k })
  | .enccbc => succeed (writeRoundKeys (roundKeys s.k) { s with cph := cbcBytes s.msg s.k s.v })

/-! ### Commands outside every encoding -/

/-- R45 items 4 to 6: an oversize load or a round that does not exist. -/
theorem exec_of_not_wellFormed {i : Instr} (hwf : ¬ i.WellFormed) (s : State) :
    exec i s = .next (raise .illegalCommand .nothing s) := by
  cases i with
  | lda S => exact (execLda_cases S s).elim And.right fun ⟨hle, _⟩ => absurd (decide_eq_true hle) hwf
  | ldk S => exact (execLdk_cases S s).elim And.right fun ⟨hle, _⟩ => absurd (decide_eq_true hle) hwf
  | ldv S => exact (execLdv_cases S s).elim And.right fun ⟨hle, _⟩ => absurd (decide_eq_true hle) hwf
  | ldm P => exact (execLdm_cases P s).elim And.right fun ⟨hle, _⟩ => absurd (decide_eq_true hle) hwf
  | frnd r => exact if_pos fun hr => hwf (decide_eq_true hr)
  | nop | clr | permIp | permFp | permPc1 | permPc2 | permE | permP | ksched | encblk | encecb | enccbc =>
    exact absurd rfl hwf

/-- Settles O26: the raised error empties nothing, so only STATUS changes. -/
theorem illFormedCommandsRaiseIllegalCommand : Obligations.IllFormedCommandsRaiseIllegalCommand :=
  fun _ s hwf => failsKeepingStores_of_raise (exec_of_not_wellFormed hwf s)

/-! ### Commands with a legal encoding -/

section
variable {i : Instr} {s : State}

/-- R113: a legal command whose first error is `err` raises it and empties its result store. -/
theorem exec_of_raisedError (hwf : i.WellFormed) {err : EngineError} (h : raisedError s i = some err) :
    exec i s = .next (raise err (resultStore i) s) := by
  obtain ⟨t, hexec, ⟨err', herr, rfl⟩ | ⟨hnone, _⟩⟩ := raisesOrFills_of_wellFormed hwf s
  · rw [hexec, Option.some.inj (h.symm.trans herr)]
  · exact absurd (h.symm.trans hnone) nofun

theorem ksched_no_error_iff : raisedError s .ksched = none ↔ s.k.length = 64 := by
  simp [raisedError]

theorem frnd_no_error_iff {r : Nat} : raisedError s (.frnd r) = none ↔ s.a.length = 32 ∧ s.rkv = true := by
  simp [raisedError, ite_eq_iff]

theorem encblk_no_error_iff : raisedError s .encblk = none ↔ s.a.length = 64 ∧ s.k.length = 64 := by
  simp [raisedError, ite_eq_iff]

theorem encecb_no_error_iff : raisedError s .encecb = none ↔ 8 ≤ s.msg.length ∧ s.k.length = 64 := by
  simp [raisedError, ite_eq_iff]

theorem enccbc_no_error_iff :
    raisedError s .enccbc = none ↔ 8 ≤ s.msg.length ∧ s.k.length = 64 ∧ s.v.length = 64 := by
  simp [raisedError, ite_eq_iff]

theorem exec_perm_of_no_error {T : PermTable} {bound len : Nat} (hrow : (i, T, bound, len) ∈ permCommands)
    (h : raisedError s i = none) : exec i s = .next (succeed { s with q := select s.a T }) := by
  obtain ⟨_, _, herr⟩ := permCommands_errors_and_results s _ hrow
  refine exec_perm_of_le hrow (Nat.not_lt.mp fun hlt => ?_)
  exact absurd (h.symm.trans (herr.trans (if_pos hlt))) nofun

/-- R122: a legal command to which no error applies succeeds. -/
theorem exec_of_no_error (hwf : i.WellFormed) (h : raisedError s i = none) : exec i s = .next (successState s i) := by
  cases i with
  | nop => rfl
  | clr => rfl
  | lda S => exact exec_lda_of_le s (of_decide_eq_true hwf)
  | ldk S => exact exec_ldk_of_le s (of_decide_eq_true hwf)
  | ldv S => exact exec_ldv_of_le s (of_decide_eq_true hwf)
  | ldm P => exact exec_ldm_of_le s (of_decide_eq_true hwf)
  | permIp => exact exec_perm_of_no_error (List.mem_of_getElem? (i := 0) rfl) h
  | permFp => exact exec_perm_of_no_error (List.mem_of_getElem? (i := 1) rfl) h
  | permPc1 => exact exec_perm_of_no_error (List.mem_of_getElem? (i := 2) rfl) h
  | permPc2 => exact exec_perm_of_no_error (List.mem_of_getElem? (i := 3) rfl) h
  | permE => exact exec_perm_of_no_error (List.mem_of_getElem? (i := 4) rfl) h
  | permP => exact exec_perm_of_no_error (List.mem_of_getElem? (i := 5) rfl) h
  | ksched => exact exec_ksched_of_eq (ksched_no_error_iff.mp h)
  | frnd r =>
    obtain ⟨h1, h16⟩ : 1 ≤ r ∧ r ≤ 16 := of_decide_eq_true hwf
    obtain ⟨ha, hr⟩ := frnd_no_error_iff.mp h
    exact exec_frnd_of_ready h1 h16 ha hr
  | encblk =>
    obtain ⟨ha, hk⟩ := encblk_no_error_iff.mp h
    exact exec_encblk_of_eq ha hk
  | encecb =>
    obtain ⟨hm, hk⟩ := encecb_no_error_iff.mp h
    exact exec_encecb_of_eq hm hk
  | enccbc =>
    obtain ⟨hm, hk, hv⟩ := enccbc_no_error_iff.mp h
    exact exec_enccbc_of_eq hm hk hv

end

/-- How `exec` can answer, for every command and state: IllegalCommand outside every encoding, the first error that
applies, or the success. -/
theorem exec_cases (i : Instr) (s : State) :
    (¬ i.WellFormed ∧ exec i s = .next (raise .illegalCommand .nothing s)) ∨
    (i.WellFormed ∧ ∃ err, raisedError s i = some err ∧ exec i s = .next (raise err (resultStore i) s)) ∨
    (i.WellFormed ∧ raisedError s i = none ∧ exec i s = .next (successState s i)) := by
  by_cases hwf : i.WellFormed
  · cases h : raisedError s i with
    | some err => exact .inr (.inl ⟨hwf, err, rfl, exec_of_raisedError hwf h⟩)
    | none => exact .inr (.inr ⟨hwf, rfl, exec_of_no_error hwf h⟩)
  · exact .inl ⟨hwf, exec_of_not_wellFormed hwf s⟩

/-- The same for a known answer, the two ways to raise an error taken together. -/
theorem exec_next_cases {i : Instr} {s t : State} (hexec : exec i s = .next t) :
    (∃ err store, t = raise err store s ∧ (store = resultStore i ∨ store = .nothing)) ∨
    (i.WellFormed ∧ raisedError s i = none ∧ t = successState s i) := by
  obtain ⟨_, h⟩ | ⟨_, err, _, h⟩ | ⟨hwf, hnone, h⟩ := exec_cases i s
  · exact .inl ⟨_, _, Host.Outcome.next.inj (hexec.symm.trans h), .inr rfl⟩
  · exact .inl ⟨_, _, Host.Outcome.next.inj (hexec.symm.trans h), .inl rfl⟩
  · exact .inr ⟨hwf, hnone, Host.Outcome.next.inj (hexec.symm.trans h)⟩

theorem exec_answers_next (i : Instr) (s : State) : ∃ t, exec i s = .next t := by
  obtain ⟨_, h⟩ | ⟨_, _, _, h⟩ | ⟨_, _, h⟩ := exec_cases i s <;> exact ⟨_, h⟩

end Sys2Proof.Machine
end

section
/-! SUPPORT. A step by what the decoder answers (spec/30_encoding.md R46, R47), the host's turn
(spec/70_reset_and_hazards.md R131, R143), and what no command touches. -/
namespace Sys2Proof.Machine

/-! ### The step -/

theorem step_of_command {s : State} {i : Instr} {used : Nat} (h : decode s.port = .command i used) :
    step s = exec i (consume used s) := by
  rw [step, h]

theorem step_of_illegal {s : State} {why : Illegal} {used : Nat} (h : decode s.port = .illegal why used) :
    step s = .next (runIllegal why used s) := by
  rw [step, h]

theorem step_of_incomplete {s : State} (h : decode s.port = .incomplete) : step s = .next (hostTurn s) := by
  rw [step, h]

/-- Settles O7: `consume` takes the command's bytes from the stream. -/
theorem stepRunsTheDecodedCommand : Obligations.StepRunsTheDecodedCommand := fun _ _ _ h => step_of_command h

/-! ### The host's turn -/

section
variable {s : State} {rest : List HostMove}

/-- R143: the host's turn is its next move. -/
theorem hostTurn_of_moves {move : HostMove} (h : s.moves = move :: rest) :
    hostTurn s = applyMove move { s with moves := rest } := by
  rw [hostTurn, h]

theorem hostTurn_of_no_move (h : s.moves = []) : hostTurn s = s := by
  rw [hostTurn, h]

end

/-- Settles O4: the two moves leave the engine as it is. -/
theorem hostReadsAndPresentsWithoutSideEffect : Obligations.HostReadsAndPresentsWithoutSideEffect := by
  refine fun s rest hdec => ⟨fun n hmoves => ?_, fun B hmoves => ?_⟩ <;>
    rw [step_of_incomplete hdec, hostTurn_of_moves hmoves]
  · exact ⟨_, rfl, rfl, rfl, rfl, rfl⟩
  · exact ⟨_, rfl, rfl, rfl, rfl, rfl⟩

/-- Settles O5: the engine becomes `Engine.reset` and the stream is dropped. -/
theorem resetMoveResetsTheEngine : Obligations.ResetMoveResetsTheEngine := by
  intro s rest hdec hmoves
  rw [step_of_incomplete hdec, hostTurn_of_moves hmoves]
  exact ⟨_, rfl, rfl, rfl, rfl, rfl⟩

/-- Settles O6: without a move the host's turn is the state itself. -/
theorem incompleteCommandWaits : Obligations.IncompleteCommandWaits := by
  intro s hdec hmoves
  rw [step_of_incomplete hdec, hostTurn_of_no_move hmoves]

/-! ### The stream -/

/-- R47: no command touches the host's side. -/
theorem exec_hostSideKept {i : Instr} {s t : State} (hexec : exec i s = .next t) : HostSideKept s t := by
  obtain ⟨err, store, rfl, _⟩ | ⟨_, _, rfl⟩ := exec_next_cases hexec
  · exact ⟨raise_port s err store, raise_moves s err store, raise_readout s err store⟩
  · cases i <;> exact ⟨rfl, rfl, rfl⟩

/-- R42, R46: a complete command, legal or not, has its command word and lies within the stream. -/
theorem decode_used_bounds {B : ByteSeq} (h : decode B ≠ .incomplete) :
    ∃ used, 2 ≤ used ∧ used ≤ B.length ∧
      ((∃ i, decode B = .command i used) ∨ ∃ why, decode B = .illegal why used) := by
  obtain ⟨_, hinc⟩ | ⟨op, arg, rest, rfl, _, hdec⟩ | ⟨_, _, _, _, _, hinc, _⟩ |
    ⟨op, arg, n1, n0, P, rest, rfl, _, _, hdec⟩ := decode_cases B
  · exact absurd hinc h
  · rw [hdec]
    exact ⟨2, le_rfl, by simp, decodeControl_used op arg⟩
  · exact absurd hinc h
  · rw [hdec]
    exact ⟨4 + P.length, by omega, by simp; omega, decodePayload_used op arg _ P _⟩

/-- Settles O9: every answer is a next state, and a complete command's bytes have left the stream. -/
theorem stepNeverStopsAndConsumes : Obligations.StepNeverStopsAndConsumes := by
  intro s
  by_cases hdec : decode s.port = .incomplete
  · exact ⟨hostTurn s, step_of_incomplete hdec, fun h => absurd hdec h⟩
  · obtain ⟨used, htwo, hused, hread⟩ := decode_used_bounds hdec
    have hdrop : (s.port.drop used).length + 2 ≤ s.port.length := by rw [List.length_drop]; omega
    obtain ⟨i, hcommand⟩ | ⟨why, hillegal⟩ := hread
    · obtain ⟨t, hexec⟩ := exec_answers_next i (consume used s)
      obtain ⟨hport, _⟩ := exec_hostSideKept hexec
      exact ⟨t, (step_of_command hcommand).trans hexec, fun _ => by rwa [hport]⟩
    · exact ⟨runIllegal why used s, step_of_illegal hillegal, fun _ => hdrop⟩

end Sys2Proof.Machine
end

section
/-! SUPPORT. Which commands can change what (spec/10_state.md R14 to R21), and a command run again
(spec/70_reset_and_hazards.md R136). -/
namespace Sys2Proof.Machine

/-! ### Stores, round keys, STATUS -/

/-- R113: the commands an error of which empties `Q`. -/
theorem mem_of_resultStore_q {i : Instr} (h : resultStore i = .q) :
    i ∈ [.permIp, .permFp, .permPc1, .permPc2, .permE, .permP, .encblk] ∨ ∃ r, i = .frnd r := by
  cases i <;> simp [resultStore] at h ⊢

/-- R113: the commands an error of which empties CPH. -/
theorem mem_of_resultStore_cph {i : Instr} (h : resultStore i = .cph) : i ∈ [.encecb, .enccbc] := by
  cases i <;> simp [resultStore] at h ⊢

/-- Between `s` and `t` only stores that are the command's to write have changed: an operand store by its load, a
result store by a command whose result goes there, and any store by CLR (R14 to R19). -/
def ChangesOnlyItsStores (i : Instr) (s t : State) : Prop :=
  (t.a ≠ s.a → i = .clr ∨ ∃ S, i = .lda S) ∧ (t.k ≠ s.k → i = .clr ∨ ∃ S, i = .ldk S) ∧
  (t.v ≠ s.v → i = .clr ∨ ∃ S, i = .ldv S) ∧ (t.msg ≠ s.msg → i = .clr ∨ ∃ P, i = .ldm P) ∧
  (t.q ≠ s.q → i = .clr ∨ resultStore i = .q) ∧ (t.cph ≠ s.cph → i = .clr ∨ resultStore i = .cph)

theorem successState_changesOnlyItsStores (s : State) (i : Instr) : ChangesOnlyItsStores i s (successState s i) := by
  unfold ChangesOnlyItsStores
  cases i <;> simp [successState, resultStore]

/-- R113: an error changes the store it empties and no other. -/
theorem raise_changesOnlyItsStores {i : Instr} {store : ResultStore} (hstore : store = resultStore i ∨ store = .nothing)
    (err : EngineError) (s : State) : ChangesOnlyItsStores i s (raise err store s) := by
  unfold ChangesOnlyItsStores
  obtain rfl | rfl := hstore
  · cases resultStore i <;> simp
  · simp

theorem exec_changesOnlyItsStores {i : Instr} {s t : State} (hexec : exec i s = .next t) :
    ChangesOnlyItsStores i s t := by
  obtain ⟨err, store, rfl, hstore⟩ | ⟨_, _, rfl⟩ := exec_next_cases hexec
  · exact raise_changesOnlyItsStores hstore err s
  · exact successState_changesOnlyItsStores s i

/-- Settles O49: the commands by their result store. -/
theorem storesChangeOnlyByTheirCommands : Obligations.StoresChangeOnlyByTheirCommands := by
  intro i s t hexec
  obtain ⟨ha, hk, hv, hm, hq, hcph⟩ := exec_changesOnlyItsStores hexec
  refine ⟨ha, hk, hv, hm, fun hne => ?_, fun hne => ?_⟩
  · obtain rfl | hstore := hq hne
    · exact .inl List.mem_cons_self
    · exact (mem_of_resultStore_q hstore).imp_left (List.mem_cons_of_mem _)
  · obtain rfl | hstore := hcph hne
    · exact List.mem_cons_self
    · exact List.mem_cons_of_mem _ (mem_of_resultStore_cph hstore)

/-- Settles O50: an error keeps the round-key file and RKV, and only these commands' successes write them. -/
theorem roundKeysChangeOnlyByTheirCommands : Obligations.RoundKeysChangeOnlyByTheirCommands := by
  intro i s t hexec hne
  obtain ⟨err, store, rfl, _⟩ | ⟨_, _, rfl⟩ := exec_next_cases hexec
  · obtain ⟨_, _, hrkv, _⟩ := raise_statusFails err store s
    exact absurd hne (not_or.mpr ⟨not_not.mpr (raise_rk s err store), not_not.mpr hrkv⟩)
  · cases i <;> simp [successState] at hne ⊢

/-- R21: CLR apart, a success keeps ESTICKY. -/
theorem successState_esticky {i : Instr} (h : i ≠ .clr) (s : State) : (successState s i).esticky = s.esticky := by
  cases i <;> simp [successState] at h ⊢

/-- R21, R125: the only command that clears ESTICKY. -/
theorem eq_clr_of_clean {i : Instr} {s t : State} (hexec : exec i s = .next t) (hs : ¬ Clean s) (ht : Clean t) :
    i = .clr := by
  obtain ⟨err, store, rfl, _⟩ | ⟨_, _, rfl⟩ := exec_next_cases hexec
  · obtain ⟨_, hsticky, _⟩ := raise_statusFails err store s
    exact absurd (hsticky.symm.trans ht) nofun
  · by_contra hclr
    exact hs ((successState_esticky hclr s).symm.trans ht)

/-- R131, R143: the only move of the host that clears ESTICKY. -/
theorem moves_eq_reset_of_clean {s : State} (hs : ¬ Clean s) (ht : Clean (hostTurn s)) :
    ∃ rest, s.moves = .reset :: rest := by
  obtain ⟨_, h⟩ | ⟨_, _, _, h⟩ | ⟨_, _, _, h⟩ | ⟨rest, hmoves, _⟩ := hostTurn_cases s
  case inr.inr.inr => exact ⟨rest, hmoves⟩
  all_goals rw [h] at ht; exact absurd ht hs

/-- Settles O51: by what the decoder answers; an illegal encoding sets ESTICKY. -/
theorem stickyClearedOnlyByClrOrReset : Obligations.StickyClearedOnlyByClrOrReset := by
  intro s t hstep hs ht
  cases hdec : decode s.port with
  | command i used =>
    rw [step_of_command hdec] at hstep
    exact .inl ⟨used, by rw [eq_clr_of_clean hstep hs ht]⟩
  | illegal why used =>
    obtain ⟨t', hstep', _, ⟨_, hsticky, _⟩, _⟩ := rejected_of_decode_illegal ⟨why, hdec⟩
    obtain rfl := Host.Outcome.next.inj (hstep.symm.trans hstep')
    exact absurd (hsticky.symm.trans ht) nofun
  | incomplete =>
    obtain rfl := Host.Outcome.next.inj ((step_of_incomplete hdec).symm.trans hstep)
    exact .inr ⟨rfl, moves_eq_reset_of_clean hs ht⟩

/-- Settles O52: a legal command whose ECODE is not 0 has raised an error, and that changes STATUS and the result
store. -/
theorem errorsChangeOnlyStatusAndResult : Obligations.ErrorsChangeOnlyStatusAndResult := by
  intro i s t hwf hexec hcode
  obtain ⟨err, _, rfl⟩ | ⟨_, hzero, _⟩ := raisesOrFills_of_exec hwf hexec
  · refine ⟨raise_a .., raise_k .., raise_v .., raise_msg .., raise_rk .., ?_, exec_hostSideKept hexec,
      raise_q .., raise_cph ..⟩
    rw [raise_ecode]
    exact raise_statusFails err _ s
  · exact absurd hzero hcode

/-! ### A command run again -/

theorem raise_raise (err : EngineError) (store : ResultStore) (s : State) :
    raise err store (raise err store s) = raise err store s := by
  have hstatus : setEsticky (setEcode (setEsticky (setEcode s.status err.code) true) err.code) true =
      setEsticky (setEcode s.status err.code) true := status_ext (by simp) (by simp) (by simp) (by simp)
  cases store <;> simp [raise, emptyResult, hstatus]

/-- R113: an error leaves the operands as they were, and with them the first error that applies. -/
theorem raisedError_raise (err : EngineError) (store : ResultStore) (s : State) (i : Instr) :
    raisedError (raise err store s) i = raisedError s i := by
  cases i <;> simp [raisedError]

/-- R122: a success too leaves the operands of its command as its tests read them. -/
theorem raisedError_successState (s : State) (i : Instr) : raisedError (successState s i) i = raisedError s i := by
  cases i with
  | frnd r => simp [raisedError, successState]
  | _ => rfl

/-- R20, R21: the round keys written twice. -/
theorem status_written_twice (w : Word) (b : Bool) :
    setEcode (setRkv (setEcode (setRkv w b) 0#4) b) 0#4 = setEcode (setRkv w b) 0#4 :=
  status_ext (by simp) (by simp) (by simp) (by simp)

theorem successState_successState (s : State) (i : Instr) :
    successState (successState s i) i = successState s i := by
  cases i <;>
    simp [successState, succeed, writeRoundKeys, clearRoundKeys, status_written_twice, Engine.rkBits, Engine.rkAt]

/-- Settles O55: an error is raised again by the same operands, and a success computes the same result again. -/
theorem repeatingACommandChangesNothing : Obligations.RepeatingACommandChangesNothing := by
  intro i s t hexec
  obtain ⟨hwf, h⟩ | ⟨hwf, err, herr, h⟩ | ⟨hwf, hnone, h⟩ := exec_cases i s <;>
    obtain rfl := Host.Outcome.next.inj (h.symm.trans hexec)
  · rw [exec_of_not_wellFormed hwf, raise_raise]
  · rw [exec_of_raisedError hwf ((raisedError_raise _ _ s i).trans herr), raise_raise]
  · rw [exec_of_no_error hwf ((raisedError_successState s i).trans hnone), successState_successState]

end Sys2Proof.Machine
end

section
/-! SUPPORT. The invariants of the state (spec/10_state.md R26): reset meets them, every success and with it every step
keeps them, and under them no length register wraps. -/
namespace Sys2Proof.Machine

/-! ### Reset -/

theorem reset_inv : Engine.reset.Inv where
  aCap := Nat.zero_le _
  kCap := Nat.zero_le _
  vCap := Nat.zero_le _
  memory := reset_memory_wf
  qLengths := List.mem_cons_self
  keysValid := nofun
  keysCleared := fun _ _ => reset_rkBits
  ecodeRange := by decide
  stickySet := by decide
  reservedZero := by decide

/-- Settles O11: the engine of `State.reset` is `Engine.reset`. -/
theorem resetHasInvariants : Obligations.ResetHasInvariants := reset_inv

/-! ### A step -/

section
variable {s : State} (h : s.toEngine.Inv)
include h

/-- R26: a result of a length that Q can have. -/
theorem succeed_q_inv {out : BitSeq} (hout : out.length ∈ [0, 32, 48, 56, 64]) :
    (succeed { s with q := out }).toEngine.Inv :=
  succeed_inv h.aCap h.kCap h.vCap h.memory hout h.keysValid h.keysCleared h.reservedZero

/-- R26 item 3: the round keys written are those of the key in `K`, beside which `Q` or CPH may be new. -/
theorem succeed_writeRoundKeys_inv (hk : s.k.length = 64) {q : BitSeq} {C : ByteSeq}
    (hq : q.length ∈ [0, 32, 48, 56, 64]) (hm : Memory.wf { s.toEngine with cph := C } = true) :
    (succeed (writeRoundKeys (roundKeys s.k) { s with q := q, cph := C })).toEngine.Inv := by
  refine succeed_inv h.aCap h.kCap h.vCap hm hq (fun _ => ⟨hk, fun r h1 h16 => writeRoundKeys_roundKey s.k h1 h16⟩)
    (fun hr => ?_) ((reservedOf_setRkv _ _).trans h.reservedZero)
  exact absurd ((rkvOf_setRkv s.status true).symm.trans hr) nofun

/-- R26 item 4: a new key of any length, with the round keys cleared. -/
theorem succeed_ldk_inv {S : BitSeq} (hS : S.length ≤ Config.OPCAP) :
    (succeed (clearRoundKeys { s with k := S })).toEngine.Inv := by
  refine succeed_inv h.aCap hS h.vCap h.memory h.qLengths (fun hr => ?_) (fun _ _ => clearRoundKeys_rkBits _)
    ((reservedOf_setRkv _ _).trans h.reservedZero)
  exact absurd ((rkvOf_setRkv s.status false).symm.trans hr) nofun

theorem successState_inv {i : Instr} (hwf : i.WellFormed) (hnone : raisedError s i = none) :
    (successState s i).toEngine.Inv := by
  cases i with
  | nop =>
    exact succeed_inv h.aCap h.kCap h.vCap h.memory h.qLengths h.keysValid h.keysCleared h.reservedZero
  | clr => exact reset_inv
  | lda S =>
    exact succeed_inv (of_decide_eq_true hwf) h.kCap h.vCap h.memory h.qLengths h.keysValid h.keysCleared h.reservedZero
  | ldk S => exact succeed_ldk_inv h (of_decide_eq_true hwf)
  | ldv S =>
    exact succeed_inv h.aCap h.kCap (of_decide_eq_true hwf) h.memory h.qLengths h.keysValid h.keysCleared h.reservedZero
  | ldm P =>
    exact succeed_inv h.aCap h.kCap h.vCap (load_memory_wf h.memory (of_decide_eq_true hwf)) h.qLengths h.keysValid
      h.keysCleared h.reservedZero
  | permIp | permFp | permPc1 | permPc2 | permE | permP =>
    exact succeed_q_inv h (by rw [select_length]; decide)
  | ksched => exact succeed_writeRoundKeys_inv h (ksched_no_error_iff.mp hnone) h.qLengths h.memory
  | frnd r => exact succeed_q_inv h (by rw [mangler_length]; decide)
  | encblk =>
    exact succeed_writeRoundKeys_inv h (encblk_no_error_iff.mp hnone).2 (by rw [desBlock_length]; decide) h.memory
  | encecb =>
    exact succeed_writeRoundKeys_inv h (encecb_no_error_iff.mp hnone).2 h.qLengths
      (ciphertext_memory_wf h.memory (ecbBytes_length s.msg s.k))
  | enccbc =>
    obtain ⟨_, hk, hv⟩ := enccbc_no_error_iff.mp hnone
    exact succeed_writeRoundKeys_inv h hk h.qLengths (ciphertext_memory_wf h.memory (cbcBytes_length s.msg s.k hv))

theorem exec_inv {i : Instr} {t : State} (hexec : exec i s = .next t) : t.toEngine.Inv := by
  obtain ⟨err, store, rfl, _⟩ | ⟨hwf, hnone, rfl⟩ := exec_next_cases hexec
  · exact raise_inv h err store
  · exact successState_inv h hwf hnone

theorem hostTurn_inv : (hostTurn s).toEngine.Inv := by
  obtain ⟨_, ht⟩ | ⟨_, _, _, ht⟩ | ⟨_, _, _, ht⟩ | ⟨_, _, ht⟩ := hostTurn_cases s
  case inr.inr.inr => rw [ht]; exact reset_inv
  all_goals rw [ht]; exact h

end

/-- Settles O10: a command read from the stream, an illegal encoding and the host's turn each keep the invariants. -/
theorem stepKeepsInvariants : Obligations.StepKeepsInvariants := by
  intro s t h hstep
  cases hdec : decode s.port with
  | command i used => exact exec_inv (s := consume used s) h ((step_of_command hdec).symm.trans hstep)
  | illegal why used =>
    obtain rfl := Host.Outcome.next.inj ((step_of_illegal hdec).symm.trans hstep)
    exact raise_inv (s := consume used s) h _ _
  | incomplete =>
    obtain rfl := Host.Outcome.next.inj ((step_of_incomplete hdec).symm.trans hstep)
    exact hostTurn_inv h

/-! ### The length registers -/

/-- R7: every ciphertext that fits in CPH has a length that a length register holds. -/
theorem lt_of_le_CPHCAP {n : Nat} (h : n ≤ Config.CPHCAP) : n < 2 ^ 16 := by
  unfold Config.CPHCAP Config.MSGCAP at h
  omega

theorem lt_of_le_OPCAP {n : Nat} (h : n ≤ Config.OPCAP) : n < 2 ^ 16 := Nat.lt_of_le_of_lt h (by decide)

/-- R26 item 2. -/
theorem lt_of_mem_qLengths : ∀ n ∈ [0, 32, 48, 56, 64], n < 2 ^ 16 := by decide

/-- Settles O3: each store's capacity is below `2^16`, also for every capacity of the message store that R7 allows. -/
theorem lengthRegistersNeverWrap : Obligations.LengthRegistersNeverWrap := by
  intro e h
  obtain ⟨hmsg, _, hcph⟩ := (memory_wf_iff e).mp h.memory
  exact ⟨toNat_word_of_lt (lt_of_le_OPCAP h.aCap), toNat_word_of_lt (lt_of_le_OPCAP h.kCap),
    toNat_word_of_lt (lt_of_le_OPCAP h.vCap), toNat_word_of_lt (lt_of_le_MSGCAP hmsg),
    toNat_word_of_lt (lt_of_mem_qLengths _ h.qLengths), toNat_word_of_lt (lt_of_le_CPHCAP hcph)⟩

end Sys2Proof.Machine
end

section
/-! SUPPORT. The command encoding (spec/30_encoding.md R42 to R46): decoding undoes encoding and encoding undoes
decoding, which encodings are illegal and which are incomplete, and the opcode map. -/
namespace Sys2Proof.Machine

/-! ### The payload of a bit load -/

/-- R43: the pad bits make whole bytes. -/
theorem padded_length (S : BitSeq) :
    (S ++ zeros (8 * ceilDiv8 S.length - S.length)).length = 8 * ceilDiv8 S.length := by
  obtain ⟨hle, _⟩ := ceilDiv8_bits S.length
  rw [List.length_append, zeros_length]
  omega

/-- R43: the bits of a payload are the loaded bits, then the pad bits. -/
theorem bitsOfBytes_payloadOfBits (S : BitSeq) :
    bitsOfBytes (payloadOfBits S) = S ++ zeros (8 * ceilDiv8 S.length - S.length) :=
  bitsOfBytes_bytesOfBits _ _ (padded_length S)

/-- R43: pad bits that are all 0 are what the encoder adds. -/
theorem eq_zeros_of_any_false {S : BitSeq} (h : S.any id = false) : S = zeros S.length :=
  List.eq_replicate_iff.mpr ⟨rfl, fun b hb => by simpa using List.any_eq_false.mp h b hb⟩

/-- R43: the payload of the bits that the decoder takes from a payload without a pad bit that is 1. -/
theorem payloadOfBits_take {P : ByteSeq} {n : Nat} (hP : P.length = ceilDiv8 n)
    (hpad : ((bitsOfBytes P).drop n).any id = false) : payloadOfBits ((bitsOfBytes P).take n) = P := by
  obtain ⟨hle, _⟩ := ceilDiv8_bits n
  have hbits : (bitsOfBytes P).length = 8 * ceilDiv8 n := by rw [bitsOfBytes_length, hP]
  have htake : ((bitsOfBytes P).take n).length = n := List.length_take_of_le (hbits ▸ hle)
  have hdrop := eq_zeros_of_any_false hpad
  rw [List.length_drop, hbits] at hdrop
  rw [payloadOfBits, htake, ← hdrop, List.take_append_drop, bytesOfBits_bitsOfBytes]

/-! ### Loads -/

/-- R44: which command a bit load of this `op` is. -/
def bitLoad (op : Byte) (S : BitSeq) : Instr := if op = 0x10 then .lda S else if op = 0x11 then .ldk S else .ldv S

section
variable {op arg : Byte} {n : Nat} {P : ByteSeq} {used : Nat}

/-- R45 item 2, tested first. -/
theorem decodePayload_of_arg_ne (h : arg ≠ 0) : decodePayload op arg n P used = .illegal .argNotZero used := if_pos h

/-- R45 item 6. -/
theorem decodePayload_bytes : decodePayload 0x13 0 n P used =
    if n ≤ Config.MSGCAP then .command (.ldm P) used else .illegal .messageTooLong used := rfl

/-- R45 item 5, the length tested before the pad bits. -/
theorem decodePayload_bits (hop : op ≠ 0x13) : decodePayload op 0 n P used =
    if Config.OPCAP < n then .illegal .tooManyBits used
    else if ((bitsOfBytes P).drop n).any id then .illegal .padBitSet used
    else .command (bitLoad op ((bitsOfBytes P).take n)) used := by
  rw [decodePayload, if_neg (not_not.mpr rfl), if_neg hop, bitLoad, apply_ite (Decoded.command · used),
    apply_ite (Decoded.command · used)]

end

/-- R42, R44: a bit load of the three, as bytes. -/
theorem encode_bitLoad {op : Byte} (hop : op ∈ [0x10, 0x11, 0x12]) (S : BitSeq) :
    encode (bitLoad op S) = op :: 0 :: (bytesOfWord (BitVec.ofNat 16 S.length) ++ payloadOfBits S) := by
  have hword : bytesOfWord 0x1000 = [0x10, 0] ∧ bytesOfWord 0x1100 = [0x11, 0] ∧ bytesOfWord 0x1200 = [0x12, 0] := by
    decide
  obtain ⟨h0, h1, h2⟩ := hword
  fin_cases hop
  · exact congrArg (· ++ _) h0
  · exact congrArg (· ++ _) h1
  · exact congrArg (· ++ _) h2

theorem encode_ldm (P : ByteSeq) : encode (.ldm P) = 0x13 :: 0 :: (bytesOfWord (BitVec.ofNat 16 P.length) ++ P) :=
  congrArg (· ++ _) (by decide : bytesOfWord 0x1300 = [0x13, 0])

theorem wellFormed_bitLoad_iff (op : Byte) (S : BitSeq) : (bitLoad op S).WellFormed ↔ S.length ≤ Config.OPCAP := by
  unfold bitLoad
  split
  · exact decide_eq_true_iff
  · split <;> exact decide_eq_true_iff

/-- R42, R46: a load whose length word counts what its payload holds decodes by its payload alone. -/
theorem decode_load_of_length {op : Byte} (hload : isLoadOp op = true) {n : Nat} (hn : n < 65536) {P : ByteSeq}
    (hP : P.length = payloadLength op n) (rest : ByteSeq) :
    decode (op :: 0 :: (bytesOfWord (BitVec.ofNat 16 n) ++ P) ++ rest) = decodePayload op 0 n P (4 + P.length) := by
  obtain ⟨n1, n0, hword, rfl⟩ := bytesOfWord_ofNat n hn
  rw [hword]
  simpa using decode_load (arg := 0) (rest := rest) hload hP

/-- R46 for the bit loads. -/
theorem decode_encode_bitLoad {op : Byte} (hop : op ∈ [0x10, 0x11, 0x12]) {S : BitSeq} (hS : S.length ≤ Config.OPCAP)
    (rest : ByteSeq) :
    decode (encode (bitLoad op S) ++ rest) = .command (bitLoad op S) (encode (bitLoad op S)).length := by
  have hload : isLoadOp op = true := by fin_cases hop <;> decide
  have hbits : op ≠ 0x13 := by fin_cases hop <;> decide
  have hpayload : (payloadOfBits S).length = payloadLength op S.length := by
    rw [payloadOfBits_length, payloadLength, if_neg hbits]
  have hword : S.length < 65536 := Nat.lt_of_le_of_lt hS (by decide)
  rw [encode_bitLoad hop, decode_load_of_length hload hword hpayload, decodePayload_bits hbits,
    bitsOfBytes_payloadOfBits, List.take_left, List.drop_left, if_neg (Nat.not_lt.mpr hS), if_neg (by simp [zeros])]
  congr 1
  simp only [List.length_cons, List.length_append, bytesOfWord_length]
  omega

/-- R46 for LDM. -/
theorem decode_encode_ldm {P : ByteSeq} (hP : P.length ≤ Config.MSGCAP) (rest : ByteSeq) :
    decode (encode (.ldm P) ++ rest) = .command (.ldm P) (encode (.ldm P)).length := by
  rw [encode_ldm, decode_load_of_length (by decide) (lt_of_le_MSGCAP hP) rfl, decodePayload_bytes, if_pos hP]
  congr 1
  simp only [List.length_cons, List.length_append, bytesOfWord_length]
  omega

/-! ### Format C -/

/-- R46 for a command of format C, from its two bytes. -/
theorem decode_encode_control {i : Instr} {op arg : Byte} (hbytes : encode i = [op, arg])
    (hload : isLoadOp op = false) (hdec : decodeControl op arg = .command i 2) (rest : ByteSeq) :
    decode (encode i ++ rest) = .command i (encode i).length := by
  rw [hbytes]
  exact (decode_control hload).trans hdec

theorem decodeControl_frnd : ∀ r ≤ 16, 1 ≤ r → decodeControl 0x40 (BitVec.ofNat 8 r) = .command (.frnd r) 2 := by
  decide

/-- Settles O12: the loads by their payload, format C by the two bytes of the command word. -/
theorem decodeOfEncode : Obligations.DecodeOfEncode := by
  intro i rest hwf
  cases i with
  | lda S => exact decode_encode_bitLoad (op := 0x10) (by decide) (of_decide_eq_true hwf) rest
  | ldk S => exact decode_encode_bitLoad (op := 0x11) (by decide) (of_decide_eq_true hwf) rest
  | ldv S => exact decode_encode_bitLoad (op := 0x12) (by decide) (of_decide_eq_true hwf) rest
  | ldm P => exact decode_encode_ldm (of_decide_eq_true hwf) rest
  | frnd r =>
    obtain ⟨h1, h16⟩ : 1 ≤ r ∧ r ≤ 16 := of_decide_eq_true hwf
    exact decode_encode_control (encode_frnd r h16) (by decide) (decodeControl_frnd r h16 h1) rest
  | nop => exact decode_encode_control (op := 0x00) (arg := 0) (by decide) (by decide) rfl rest
  | clr => exact decode_encode_control (op := 0x01) (arg := 0) (by decide) (by decide) rfl rest
  | permIp => exact decode_encode_control (op := 0x20) (arg := 0) (by decide) (by decide) rfl rest
  | permFp => exact decode_encode_control (op := 0x20) (arg := 1) (by decide) (by decide) rfl rest
  | permPc1 => exact decode_encode_control (op := 0x20) (arg := 2) (by decide) (by decide) rfl rest
  | permPc2 => exact decode_encode_control (op := 0x20) (arg := 3) (by decide) (by decide) rfl rest
  | permE => exact decode_encode_control (op := 0x20) (arg := 4) (by decide) (by decide) rfl rest
  | permP => exact decode_encode_control (op := 0x20) (arg := 5) (by decide) (by decide) rfl rest
  | ksched => exact decode_encode_control (op := 0x30) (arg := 0) (by decide) (by decide) rfl rest
  | encblk => exact decode_encode_control (op := 0x50) (arg := 0) (by decide) (by decide) rfl rest
  | encecb => exact decode_encode_control (op := 0x60) (arg := 0) (by decide) (by decide) rfl rest
  | enccbc => exact decode_encode_control (op := 0x61) (arg := 0) (by decide) (by decide) rfl rest

/-! ### Encoding what was decoded -/

theorem mem_bitLoadOps {op : Byte} (hload : isLoadOp op = true) (hop : op ≠ 0x13) : op ∈ [0x10, 0x11, 0x12] := by
  obtain rfl | rfl | rfl | rfl := (isLoadOp_iff op).mp hload
  case inr.inr.inr => exact absurd rfl hop
  all_goals decide

/-- R46 for a whole load. -/
theorem encode_of_decodePayload {op arg n1 n0 : Byte} {P : ByteSeq} {used used' : Nat} {i : Instr}
    (hload : isLoadOp op = true) (hP : P.length = payloadLength op (256 * n1.toNat + n0.toNat))
    (hdec : decodePayload op arg (256 * n1.toNat + n0.toNat) P used = .command i used') :
    used = used' ∧ i.WellFormed ∧ encode i = op :: arg :: n1 :: n0 :: P := by
  by_cases harg : arg = 0
  · subst harg
    by_cases hop : op = 0x13
    · subst hop
      have hlen : P.length = 256 * n1.toNat + n0.toNat := hP
      rw [decodePayload_bytes] at hdec
      split at hdec
      case isTrue hn =>
        obtain ⟨rfl, rfl⟩ := Decoded.command.inj hdec
        refine ⟨rfl, decide_eq_true (hlen ▸ hn), ?_⟩
        rw [encode_ldm, hlen, bytesOfWord_of_bytes]
        rfl
      case isFalse => exact absurd hdec nofun
    · rw [decodePayload_bits hop] at hdec
      rw [payloadLength, if_neg hop] at hP
      split at hdec
      case isTrue => exact absurd hdec nofun
      case isFalse hn =>
        split at hdec
        case isTrue => exact absurd hdec nofun
        case isFalse hpad =>
          obtain ⟨rfl, rfl⟩ := Decoded.command.inj hdec
          have hlen : ((bitsOfBytes P).take (256 * n1.toNat + n0.toNat)).length = 256 * n1.toNat + n0.toNat := by
            obtain ⟨hle, _⟩ := ceilDiv8_bits (256 * n1.toNat + n0.toNat)
            exact List.length_take_of_le (by rwa [bitsOfBytes_length, hP])
          refine ⟨rfl, (wellFormed_bitLoad_iff op _).mpr (hlen.trans_le (Nat.not_lt.mp hn)), ?_⟩
          rw [encode_bitLoad (mem_bitLoadOps hload hop), hlen, bytesOfWord_of_bytes,
            payloadOfBits_take hP (Bool.eq_false_of_not_eq_true hpad)]
          rfl
  · exact absurd ((decodePayload_of_arg_ne harg).symm.trans hdec) nofun

/-- R45 item 2: what a command word of a command without an operand decodes to. -/
theorem decodePlain_eq_command {i j : Instr} {arg : Byte} {used : Nat} (h : decodePlain j arg = .command i used) :
    arg = 0 ∧ j = i ∧ used = 2 := by
  unfold decodePlain at h
  split at h
  case isTrue harg =>
    obtain ⟨hi, hused⟩ := Decoded.command.inj h
    exact ⟨harg, hi, hused.symm⟩
  case isFalse => exact absurd h nofun

/-- R46 for the PERM commands. -/
theorem encode_of_decodePerm {arg : Byte} {i : Instr} {used : Nat} (h : decodePerm arg = .command i used) :
    used = 2 ∧ i.WellFormed ∧ encode i = [0x20, arg] := by
  unfold decodePerm at h
  split at h
  case h_7 => exact absurd h nofun
  all_goals
    rename_i harg
    obtain rfl := (toNat_eq_iff arg _ (by decide)).mp harg
    obtain ⟨rfl, rfl⟩ := Decoded.command.inj h
    exact ⟨rfl, rfl, by decide⟩

/-- R46 for FRND. -/
theorem encode_of_decodeFrnd {arg : Byte} (h1 : 1 ≤ arg.toNat) (h16 : arg.toNat ≤ 16) :
    (Instr.frnd arg.toNat).WellFormed ∧ encode (.frnd arg.toNat) = [0x40, arg] := by
  refine ⟨decide_eq_true ⟨h1, h16⟩, (encode_frnd _ h16).trans ?_⟩
  rw [BitVec.ofNat_toNat, BitVec.setWidth_eq]

/-- R46 for format C. -/
theorem encode_of_decodeControl {op arg : Byte} {i : Instr} {used : Nat} (h : decodeControl op arg = .command i used) :
    used = 2 ∧ i.WellFormed ∧ encode i = [op, arg] := by
  unfold decodeControl at h
  split at h
  case h_3 hop =>
    obtain rfl := (toNat_eq_iff op _ (by decide)).mp hop
    exact encode_of_decodePerm h
  case h_5 hop =>
    obtain rfl := (toNat_eq_iff op _ (by decide)).mp hop
    split at h
    case isTrue hr =>
      obtain ⟨rfl, rfl⟩ := Decoded.command.inj h
      exact ⟨rfl, encode_of_decodeFrnd hr.1 hr.2⟩
    case isFalse => exact absurd h nofun
  case h_9 => exact absurd h nofun
  all_goals
    rename_i hop
    obtain rfl := (toNat_eq_iff op _ (by decide)).mp hop
    obtain ⟨rfl, rfl, rfl⟩ := decodePlain_eq_command h
    exact ⟨rfl, rfl, by decide⟩

/-- Settles O13: by the decoder's cases, of which format C and a whole load give a command. -/
theorem encodeOfDecode : Obligations.EncodeOfDecode := by
  intro B i used h
  obtain ⟨_, hinc⟩ | ⟨op, arg, rest, rfl, _, hdec⟩ | ⟨_, _, _, _, _, hinc, _⟩ |
    ⟨op, arg, n1, n0, P, rest, rfl, hload, hP, hdec⟩ := decode_cases B
  · exact absurd (hinc.symm.trans h) nofun
  · obtain ⟨rfl, hwf, hbytes⟩ := encode_of_decodeControl (hdec.symm.trans h)
    exact ⟨hwf, by simp, hbytes⟩
  · exact absurd (hinc.symm.trans h) nofun
  · obtain ⟨rfl, hwf, hbytes⟩ := encode_of_decodePayload hload hP (hdec.symm.trans h)
    refine ⟨hwf, by simp; omega, hbytes.trans ?_⟩
    rw [Nat.add_comm]
    exact congrArg (op :: arg :: n1 :: n0 :: ·) List.take_left.symm

/-! ### The opcode map -/

theorem bytesOfWord_injective : Function.Injective bytesOfWord := by
  intro w w' h
  obtain ⟨hhigh, hlow⟩ : w.extractLsb' 8 8 = w'.extractLsb' 8 8 ∧ w.extractLsb' 0 8 = w'.extractLsb' 0 8 := by
    simpa [bytesOfWord] using h
  have hhigh := congrArg BitVec.toNat hhigh
  have hlow := congrArg BitVec.toNat hlow
  simp only [BitVec.extractLsb'_toNat, Nat.shiftRight_eq_div_pow] at hhigh hlow
  bv_omega

/-- R41, R44: a command word decodes to a command of this very word. -/
theorem commandWord_of_decode {cw : Word} {rest : ByteSeq} {i : Instr} {used : Nat}
    (h : decode (bytesOfWord cw ++ rest) = .command i used) : i.WellFormed ∧ i.commandWord = cw := by
  obtain ⟨hwf, hused, hbytes⟩ := encodeOfDecode _ i used h
  have htwo : 2 ≤ used := by
    have hlen : 2 ≤ (encode i).length := by simp [encode, bytesOfWord_length]
    rw [hbytes, List.length_take] at hlen
    omega
  refine ⟨hwf, bytesOfWord_injective ?_⟩
  rw [← encode_take_two (i := i) rfl, hbytes, List.take_take, Nat.min_eq_left htwo]
  exact List.take_left' (bytesOfWord_length cw)

/-- R44, for every command. -/
theorem selectedRows_of_wellFormed (i : Instr) : Laws.OpcodeRow.Statement i := by
  cases i with
  | nop => exact Laws.OpcodeRow.nop
  | clr => exact Laws.OpcodeRow.clr
  | lda S => exact Laws.OpcodeRow.lda S
  | ldk S => exact Laws.OpcodeRow.ldk S
  | ldv S => exact Laws.OpcodeRow.ldv S
  | ldm P => exact Laws.OpcodeRow.ldm P
  | permIp => exact Laws.OpcodeRow.permIp
  | permFp => exact Laws.OpcodeRow.permFp
  | permPc1 => exact Laws.OpcodeRow.permPc1
  | permPc2 => exact Laws.OpcodeRow.permPc2
  | permE => exact Laws.OpcodeRow.permE
  | permP => exact Laws.OpcodeRow.permP
  | ksched => exact Laws.OpcodeRow.ksched
  | frnd r => exact Laws.OpcodeRow.frnd r
  | encblk => exact Laws.OpcodeRow.encblk
  | encecb => exact Laws.OpcodeRow.encecb
  | enccbc => exact Laws.OpcodeRow.enccbc

/-- A word that two rows select agrees with both patterns on the bits that both masks keep. -/
theorem pattern_and_mask_eq {row row' : OpcodeRow} {cw : Word} (h : row.selects cw = true)
    (h' : row'.selects cw = true) :
    row.pattern &&& row'.mask = row'.pattern &&& row.mask := by
  rw [← eq_of_beq h, ← eq_of_beq h', BitVec.and_assoc, BitVec.and_assoc, BitVec.and_comm row.mask]

/-- R44: any two rows differ on the bits that both masks keep. -/
theorem opcodeTable_patterns_differ :
    opcodeTable.Pairwise fun row row' => row.pattern &&& row'.mask ≠ row'.pattern &&& row.mask := by
  decide

/-- A list that is pairwise in a relation which no two of its members are in. -/
theorem length_le_one_of_pairwise {α : Type} {R : α → α → Prop} {l : List α} (h : l.Pairwise R)
    (hnot : ∀ a ∈ l, ∀ b ∈ l, ¬ R a b) : l.length ≤ 1 := by
  cases h with
  | nil => exact Nat.zero_le 1
  | @cons a l hhead _ =>
    cases l with
    | nil => exact le_rfl
    | cons b l => exact absurd (hhead b List.mem_cons_self) (hnot a (by simp) b (by simp))

/-- R44: the rows exclude each other. -/
theorem selectedRows_length_le_one (cw : Word) : (opcodeTable.filter fun row => row.selects cw).length ≤ 1 :=
  length_le_one_of_pairwise (opcodeTable_patterns_differ.filter _) fun _ hrow _ hrow' =>
    not_not.mpr (pattern_and_mask_eq (List.mem_filter.mp hrow).2 (List.mem_filter.mp hrow').2)

/-- Settles O14: a decoded command's word is the one presented, and its row is the command's. -/
theorem decoderFollowsTheOpcodeMap : Obligations.DecoderFollowsTheOpcodeMap := by
  refine ⟨fun cw rest i used h => ?_, selectedRows_length_le_one⟩
  obtain ⟨hwf, rfl⟩ := commandWord_of_decode h
  exact selectedRows_of_wellFormed i hwf

/-! ### Illegal and incomplete encodings -/

theorem isLoadOp_iff_toNat (op : Byte) : isLoadOp op = true ↔ op.toNat ∈ [0x10, 0x11, 0x12, 0x13] := by
  simp [isLoadOp_iff, toNat_eq_iff]

/-- R45 item 1. -/
theorem decodeControl_unassigned {op : Byte} (arg : Byte)
    (h : op.toNat ∉ [0x00, 0x01, 0x10, 0x11, 0x12, 0x13, 0x20, 0x30, 0x40, 0x50, 0x60, 0x61]) :
    decodeControl op arg = .illegal .unassignedOp 2 := by
  unfold decodeControl
  split
  case h_9 => rfl
  all_goals
    rename_i hop
    rw [hop] at h
    exact absurd (by decide) h

/-- R45 item 2: the commands of format C without an operand. -/
theorem decodeControl_plain {op : Byte} (h : op.toNat ∈ [0x00, 0x01, 0x30, 0x50, 0x60, 0x61]) :
    ∃ i, ∀ arg, decodeControl op arg = decodePlain i arg := by
  simp only [List.mem_cons, List.not_mem_nil, or_false] at h
  obtain h | h | h | h | h | h := h <;>
    obtain rfl := (toNat_eq_iff op _ (by decide)).mp h <;> exact ⟨_, fun _ => rfl⟩

/-- R45 item 3. -/
theorem decodePerm_of_lt {arg : Byte} (h : 5 < arg.toNat) : decodePerm arg = .illegal .noSuchTable 2 := by
  unfold decodePerm
  split
  case h_7 => rfl
  all_goals omega

/-- Settles O15: in each clause `op` is no load, and format C answers by `op`. -/
theorem illegalControlEncodings : Obligations.IllegalControlEncodings := by
  intro op arg rest
  have hcontrol (h : op.toNat ∉ [0x10, 0x11, 0x12, 0x13]) : decode (op :: arg :: rest) = decodeControl op arg :=
    decode_control (Bool.eq_false_of_not_eq_true ((isLoadOp_iff_toNat op).not.mpr h))
  refine ⟨fun hop => ?_, fun hop harg => ?_, fun hop harg => ?_, fun hop harg => ?_⟩
  · rw [hcontrol (by simp at hop ⊢; omega), decodeControl_unassigned arg hop]
  · obtain ⟨i, hplain⟩ := decodeControl_plain hop
    rw [hcontrol (by simp at hop ⊢; omega), hplain]
    exact if_neg harg
  · rw [hcontrol (by simp [hop]), decodeControl, hop]
    exact decodePerm_of_lt harg
  · rw [hcontrol (by simp [hop]), decodeControl, hop]
    exact if_neg (by omega)

/-- Settles O16: a load with its payload answers by the decoder's tests in their order. -/
theorem illegalLoadEncodings : Obligations.IllegalLoadEncodings := by
  intro op arg n1 n0 P rest
  refine ⟨fun hop hlen => ?_, fun hop hlen => ?_⟩
  · have hload : isLoadOp op = true := (isLoadOp_iff_toNat op).mpr (List.mem_append_left [0x13] hop)
    have hbits : op ≠ 0x13 := by
      rintro rfl
      exact absurd hop (by decide)
    have hP : P.length = payloadLength op (256 * n1.toNat + n0.toNat) := by rwa [payloadLength, if_neg hbits]
    rw [decode_load hload hP]
    refine ⟨decodePayload_of_arg_ne, ?_, ?_⟩
    · rintro rfl (hn : Config.OPCAP < _)
      rw [decodePayload_bits hbits, if_pos hn]
    · rintro rfl (hn : _ ≤ Config.OPCAP) ⟨j, hj, hbit⟩
      rw [decodePayload_bits hbits, if_neg (Nat.not_lt.mpr hn), if_pos (any_drop_of_getElem? hj hbit)]
  · obtain rfl := (toNat_eq_iff op 0x13 (by decide)).mp hop
    rw [decode_load (by decide) hlen, ← hlen]
    refine ⟨decodePayload_of_arg_ne, ?_⟩
    rintro rfl hn
    exact if_neg (Nat.not_le.mpr hn)

/-- R42: the payload's length by the number of `op`. -/
theorem payloadLength_eq (op : Byte) (n : Nat) :
    payloadLength op n = if op.toNat = 0x13 then n else (n + 7) / 8 := by
  simp only [payloadLength, ceilDiv8, toNat_eq_iff op 0x13 (by decide)]
  rfl

theorem ne_incomplete_of_used {d : Decoded} {used : Nat}
    (h : (∃ i, d = .command i used) ∨ ∃ why, d = .illegal why used) : d ≠ .incomplete := by
  obtain ⟨_, rfl⟩ | ⟨_, rfl⟩ := h <;> nofun

/-- Settles O17: of the decoder's four cases the first and the third are incomplete, and the others are not. -/
theorem incompleteExactlyWhenBytesAreMissing : Obligations.IncompleteExactlyWhenBytesAreMissing := by
  intro B
  simp only [← isLoadOp_iff_toNat, ← payloadLength_eq]
  obtain ⟨hshort, hinc⟩ | ⟨op, arg, rest, rfl, hload, hdec⟩ | ⟨op, arg, rest, rfl, hload, hinc, hmissing⟩ |
    ⟨op, arg, n1, n0, P, rest, rfl, hload, hP, hdec⟩ := decode_cases B
  · exact iff_of_true hinc (.inl hshort)
  · refine iff_of_false (hdec ▸ ne_incomplete_of_used (decodeControl_used op arg)) ?_
    rintro (hshort | ⟨_, _, _, ⟨⟩, hload', _⟩)
    · simp at hshort
    · exact absurd (hload.symm.trans hload') nofun
  · exact iff_of_true hinc (.inr ⟨op, arg, rest, rfl, hload, hmissing⟩)
  · refine iff_of_false (hdec ▸ ne_incomplete_of_used (decodePayload_used op arg _ P _)) ?_
    rintro (hshort | ⟨_, _, _, ⟨⟩, _, hshort | ⟨_, _, _, ⟨⟩, hmissing⟩⟩)
    · simp at hshort
    · simp at hshort
    · rw [List.length_append] at hmissing
      omega

/-- Settles O18: each of the ten, evaluated. -/
theorem specWordsDecode : Obligations.SpecWordsDecode := by
  unfold Obligations.SpecWordsDecode
  decide

end Sys2Proof.Machine
end

section
/-! SUPPORT. Laws of the cipher for all its operands: FP undoes IP, the key schedule under parity bits and XOR,
decryption by the round keys in reverse order, and complementation (spec/41_permutation_engine.md R62,
spec/42_key_schedule.md R79, spec/44_block_cipher.md R103, spec/95_test_vectors.md V5.5). -/
namespace Sys2Proof.Machine

/-! ### The final permutation undoes the initial one -/

/-- A selection through two tables that lead each index back to itself. -/
theorem select_select_cancel {S : BitSeq} {T U : PermTable} (hlen : U.length = S.length)
    (hback : ∀ i < U.length, U.getD i 0 - 1 < T.length ∧ T.getD (U.getD i 0 - 1) 0 - 1 = i) :
    select (select S T) U = S := by
  refine List.ext_getElem ((select_length _ U).trans hlen) fun i hi _ => ?_
  have hU : i < U.length := by rwa [select_length] at hi
  obtain ⟨hT, hi'⟩ := hback i hU
  rw [List.getD_eq_getElem _ _ hU] at hT hi'
  rw [List.getD_eq_getElem _ _ hT] at hi'
  simp [select, bitAt, hT, hi', ← hlen, hU]

/-- R62: FP leads each index of IP back. -/
theorem select_FP_select_IP {S : BitSeq} (h : S.length = 64) : select (select S tableIP) tableFP = S :=
  select_select_cancel h.symm (by decide)

/-- R62: IP leads each index of FP back. -/
theorem select_IP_select_FP {S : BitSeq} (h : S.length = 64) : select (select S tableFP) tableIP = S :=
  select_select_cancel h.symm (by decide)

/-- Settles O29: both permutations succeed on 64 bits, and each table leads every index back. -/
theorem finalPermutationInvertsInitial : Obligations.FinalPermutationInvertsInitial := by
  intro S hS
  have hIP {X : BitSeq} (hX : X.length = 64) : permute X tableIP = .ok (select X tableIP) :=
    (permute_IP X).trans (if_pos hX.ge)
  have hFP {X : BitSeq} (hX : X.length = 64) : permute X tableFP = .ok (select X tableFP) :=
    (permute_FP X).trans (if_pos hX.ge)
  have hFPIP := hFP (select_length S tableIP)
  have hIPFP := hIP (select_length S tableFP)
  rw [select_FP_select_IP hS] at hFPIP
  rw [select_IP_select_FP hS] at hIPFP
  exact ⟨select S tableIP, select S tableFP, hIP hS, hFPIP, hFP hS, hIPFP⟩

/-! ### The key schedule -/

/-- R63: PC1 selects no parity bit. -/
theorem tablePC1_skips_parity : ∀ p ∈ tablePC1, p - 1 < 64 ∧ (p - 1) % 8 ≠ 7 := by decide

theorem select_PC1_eq_of_sameButParity {x y : BitSeq} (h : SameButParity x y) :
    select x tablePC1 = select y tablePC1 := by
  obtain ⟨hx, hy, hbits⟩ := h
  refine List.map_congr_left fun p hp => ?_
  obtain ⟨hlt, hpar⟩ := tablePC1_skips_parity p hp
  have hbit := hbits (p - 1) hlt hpar
  rwa [← bitAt_eq (hx ▸ hlt), ← bitAt_eq (hy ▸ hlt), Option.some_inj] at hbit

/-- Settles O31: the round keys are computed from the bits that PC1 selects. -/
theorem roundKeysIgnoreParityBits : Obligations.RoundKeysIgnoreParityBits := by
  intro x y h
  have hPC1 := select_PC1_eq_of_sameButParity h
  obtain ⟨hx, hy, _⟩ := h
  rw [KS_ok hx, KS_ok hy, roundKeys, hPC1, roundKeys]

/-- R76: XOR goes through the rotations of a half. -/
theorem xorBits_keyHalf (sh : List Nat) {C C' : BitSeq} (h : C.length = C'.length) (r : Nat) :
    xorBits (keyHalf sh C r) (keyHalf sh C' r) = keyHalf sh (xorBits C C') r := by
  induction r with
  | zero => rfl
  | succ r ih => rw [keyHalf, keyHalf, xorBits_rotl (by rw [keyHalf_length, keyHalf_length, h]), ih, keyHalf]

section
variable {x y : BitSeq} (hx : x.length = 64) (hy : y.length = 64)
include hx hy

theorem xorBits_select_PC1 :
    xorBits (select x tablePC1) (select y tablePC1) = select (xorBits x y) tablePC1 :=
  xorBits_select (hx.trans hy.symm) tablePC1 (hx ▸ by decide)

theorem xorBits_keyC (r : Nat) : xorBits (keyC x r) (keyC y r) = keyC (xorBits x y) r := by
  rw [keyC, keyC, keyC, xorBits_keyHalf _ (by simp), ← xorBits_select_PC1 hx hy, xorBits, ← List.take_zipWith]
  rfl

theorem xorBits_keyD (r : Nat) : xorBits (keyD x r) (keyD y r) = keyD (xorBits x y) r := by
  rw [keyD, keyD, keyD, xorBits_keyHalf _ (by simp), ← xorBits_select_PC1 hx hy, xorBits, ← List.drop_zipWith]
  rfl

end

/-- R76: a round key by its round number, from the halves after that round's rotation. -/
theorem roundKey_eq_select (key : BitSeq) {r : Nat} (h1 : 1 ≤ r) (h16 : r ≤ 16) :
    roundKey key r = select (keyC key r ++ keyD key r) tablePC2 := by
  have hround := roundKeys_getElem? key (show r - 1 < 16 by omega)
  rw [roundKeys_getElem?_eq_roundKey key h1 h16, Nat.sub_add_cancel h1] at hround
  exact Option.some.inj hround

/-- Settles O32: PC1, the rotations and PC2 only move bits, and XOR goes through each. -/
theorem keyScheduleIsLinear : Obligations.KeyScheduleIsLinear := by
  intro x y r hx hy h1 h16
  simp only [roundKey_eq_select _ h1 h16]
  rw [xorBits_select (by simp) tablePC2 (by simp; decide), xorBits_append (by simp), xorBits_keyC hx hy,
    xorBits_keyD hx hy]

/-- Settles O35: the tables, evaluated. -/
theorem sboxRowsArePermutations : Obligations.SboxRowsArePermutations := by
  unfold Obligations.SboxRowsArePermutations
  decide

/-! ### Decryption -/

/-- R100: a round of exchanged halves is the round undone, exchanged. -/
theorem feistelRound_swap (LR : BitSeq × BitSeq) (K : BitSeq) : feistelRound LR.swap K = (unround LR K).swap :=
  congrArg (Prod.mk LR.1) (xorBits_comm _ _)

/-- R100: the rounds are undone by the same rounds under the round keys in reverse order, with the halves exchanged. -/
theorem feistel_reverse (ks : List BitSeq) {LR : BitSeq × BitSeq} (hL : LR.1.length = 32) (hR : LR.2.length = 32) :
    feistel ks.reverse (feistel ks LR).swap = LR.swap := by
  induction ks generalizing LR with
  | nil => rfl
  | cons K ks ih =>
    obtain ⟨hL', hR'⟩ := feistelRound_widths K hL hR
    have hrest : feistel ks.reverse (feistel (K :: ks) LR).swap = (feistelRound LR K).swap := ih hL' hR'
    calc feistel (K :: ks).reverse (feistel (K :: ks) LR).swap
      _ = feistelRound (feistel ks.reverse (feistel (K :: ks) LR).swap) K := by
        rw [List.reverse_cons]
        exact List.foldl_append
      _ = LR.swap := by rw [hrest, feistelRound_swap, unround_feistelRound K hL]

/-- R99, R101: a block whose permuted halves are given. -/
theorem desBlock_select_FP (ks : List BitSeq) {L R : BitSeq} (hL : L.length = 32) (hR : R.length = 32) :
    desBlock ks (select (L ++ R) tableFP) =
      select ((feistel ks (L, R)).2 ++ (feistel ks (L, R)).1) tableFP := by
  have hlen : (L ++ R).length = 64 := by simp [hL, hR]
  have hfst : slice (L ++ R) 0 32 = L := List.take_left' hL
  have hsnd : slice (L ++ R) 32 64 = R := by rw [slice, List.drop_left' hL, List.take_of_length_le hR.le]
  rw [desBlock, select_IP_select_FP hlen, hfst, hsnd]

/-- R99: every block is FP of two halves. -/
theorem exists_halves_of_block {P : BitSeq} (h : P.length = 64) :
    ∃ L R, L.length = 32 ∧ R.length = 32 ∧ P = select (L ++ R) tableFP :=
  ⟨_, _, take_select_IP_length P, drop_select_IP_length P,
    by rw [List.take_append_drop, select_FP_select_IP h]⟩

/-- R103 (c): encryption under the round keys in reverse order is decryption. -/
theorem desBlock_reverse (ks : List BitSeq) {P : BitSeq} (h : P.length = 64) :
    desBlock ks.reverse (desBlock ks P) = P := by
  obtain ⟨L, R, hL, hR, rfl⟩ := exists_halves_of_block h
  obtain ⟨hL', hR'⟩ := feistel_widths ks (LR := (L, R)) hL hR
  have hundo : feistel ks.reverse ((feistel ks (L, R)).2, (feistel ks (L, R)).1) = (R, L) := feistel_reverse ks hL hR
  rw [desBlock_select_FP ks hL hR, desBlock_select_FP _ hR' hL', hundo]

theorem desBlock_desBlock_reverse (ks : List BitSeq) {C : BitSeq} (h : C.length = 64) :
    desBlock ks (desBlock ks.reverse C) = C := by
  have hreverse := desBlock_reverse ks.reverse h
  rwa [List.reverse_reverse] at hreverse

theorem desBlock_injective (ks : List BitSeq) {P P' : BitSeq} (h : P.length = 64) (h' : P'.length = 64)
    (heq : desBlock ks P = desBlock ks P') : P = P' := by
  rw [← desBlock_reverse ks h, heq, desBlock_reverse ks h']

/-- R98: what an answered ciphertext says of the operands. -/
theorem encryptBlock_eq_ok_iff {P key C : BitSeq} :
    encryptBlock P key = .ok C ↔ P.length = 64 ∧ key.length = 64 ∧ desBlock (roundKeys key) P = C := by
  by_cases hP : P.length = 64
  · by_cases hkey : key.length = 64
    · rw [encryptBlock_ok hP hkey]
      simp [hP, hkey]
    · rw [encryptBlock_of_key_length_ne hP hkey]
      exact iff_of_false nofun fun ⟨_, h, _⟩ => hkey h
  · rw [encryptBlock_of_plaintext_length_ne key hP]
    exact iff_of_false nofun fun ⟨h, _⟩ => hP h

/-- Settles O40: the plaintext is the ciphertext decrypted. -/
theorem encryptBlockIsBijective : Obligations.EncryptBlockIsBijective := by
  intro key C hkey hC
  refine ⟨desBlock (roundKeys key).reverse C, ⟨desBlock_length _ _,
    encryptBlock_eq_ok_iff.mpr ⟨desBlock_length _ _, hkey, desBlock_desBlock_reverse _ hC⟩⟩, fun P' hP' h => ?_⟩
  obtain ⟨_, _, rfl⟩ := encryptBlock_eq_ok_iff.mp h
  exact (desBlock_reverse _ hP').symm

/-! ### Complementation -/

/-- The complement of a sequence, bit by bit. -/
def complement (S : BitSeq) : BitSeq := S.map (!·)

@[simp] theorem complement_length (S : BitSeq) : (complement S).length = S.length := List.length_map _

theorem complement_append (S T : BitSeq) : complement (S ++ T) = complement S ++ complement T := List.map_append

theorem complement_slice (S : BitSeq) (i j : Nat) : slice (complement S) i j = complement (slice S i j) := by
  simp [slice, complement, List.map_take, List.map_drop]

theorem complement_rotl (S : BitSeq) (n : Nat) : rotl (complement S) n = complement (rotl S n) := by
  simp [rotl, complement, List.map_take, List.map_drop]

/-- R57: a selection within bounds of the complement. -/
theorem select_complement {S : BitSeq} {T : PermTable} (hT : ∀ p ∈ T, p - 1 < S.length) :
    select (complement S) T = complement (select S T) := by
  simp only [select, complement, List.map_map]
  refine List.map_congr_left fun p hp => ?_
  have hlt := hT p hp
  simp [bitAt, hlt]

/-- R83: the complements cancel. -/
theorem xorBits_complement_complement (S T : BitSeq) : xorBits (complement S) (complement T) = xorBits S T := by
  simp [xorBits, complement, List.zipWith_map]

/-- R100: one complement remains. -/
theorem xorBits_complement (S T : BitSeq) : xorBits S (complement T) = complement (xorBits S T) := by
  simp [xorBits, complement, List.zipWith_map_right, List.map_zipWith]

/-- R76: complemented halves give complemented round keys. -/
theorem keyRounds_complement (sh : List Nat) {C D : BitSeq} (hC : C.length = 28) (hD : D.length = 28) :
    keyRounds sh (complement C) (complement D) = (keyRounds sh C D).map complement := by
  induction sh generalizing C D with
  | nil => rfl
  | cons n sh ih =>
    have hC' : (rotl C n).length = 28 := (rotl_length C n).trans hC
    have hD' : (rotl D n).length = 28 := (rotl_length D n).trans hD
    have hPC2 : ∀ p ∈ tablePC2, p - 1 < (rotl C n ++ rotl D n).length := by
      rw [List.length_append, hC', hD']
      decide
    rw [keyRounds, keyRounds, complement_rotl, complement_rotl, ih hC' hD', ← complement_append,
      select_complement hPC2, List.map_cons]

theorem roundKeys_complement {key : BitSeq} (h : key.length = 64) :
    roundKeys (complement key) = (roundKeys key).map complement := by
  have hPC1 : ∀ p ∈ tablePC1, p - 1 < key.length := by rw [h]; decide
  rw [roundKeys, select_complement hPC1, complement_slice, complement_slice]
  exact keyRounds_complement SHIFTS (slice_length _ 0 28 (by simp)) (slice_length _ 28 56 (by simp))

/-- R82, R83: key mixing sees only the XOR of the expanded half-block and the round key. -/
theorem mangler_complement {R : BitSeq} (K : BitSeq) (h : R.length = 32) :
    mangler (complement R) (complement K) = mangler R K := by
  have hE : ∀ p ∈ tableE, p - 1 < R.length := by rw [h]; decide
  rw [mangler, select_complement hE, xorBits_complement_complement, mangler]

/-- R100: complemented halves under complemented round keys. -/
theorem feistel_complement (ks : List BitSeq) {L R : BitSeq} (hL : L.length = 32) (hR : R.length = 32) :
    feistel (ks.map complement) (complement L, complement R) =
      (complement (feistel ks (L, R)).1, complement (feistel ks (L, R)).2) := by
  induction ks generalizing L R with
  | nil => rfl
  | cons K ks ih =>
    obtain ⟨hL', hR'⟩ := feistelRound_widths (LR := (L, R)) K hL hR
    have hround : feistelRound (complement L, complement R) (complement K) =
        (complement (feistelRound (L, R) K).1, complement (feistelRound (L, R) K).2) := by
      rw [feistelRound, mangler_complement K hR, xorBits_complement, feistelRound]
    rw [List.map_cons, feistel, List.foldl_cons, hround, ← feistel, ih hL' hR']
    rfl

theorem desBlock_complement (ks : List BitSeq) {P : BitSeq} (h : P.length = 64) :
    desBlock (ks.map complement) (complement P) = complement (desBlock ks P) := by
  obtain ⟨L, R, hL, hR, rfl⟩ := exists_halves_of_block h
  obtain ⟨hL', hR'⟩ := feistel_widths ks (LR := (L, R)) hL hR
  have hFP {L R : BitSeq} (hL : L.length = 32) (hR : R.length = 32) :
      complement (select (L ++ R) tableFP) = select (complement L ++ complement R) tableFP := by
    have hbounds : ∀ p ∈ tableFP, p - 1 < (L ++ R).length := by
      rw [List.length_append, hL, hR]
      decide
    rw [← complement_append, select_complement hbounds]
  rw [hFP hL hR, desBlock_select_FP _ (by simpa) (by simpa), feistel_complement ks hL hR, desBlock_select_FP ks hL hR,
    hFP hR' hL']

/-- Settles O41: the complement goes through both permutations, the rounds and the key schedule. -/
theorem encryptBlockComplements : Obligations.EncryptBlockComplements := by
  intro P key C h
  obtain ⟨hP, hkey, rfl⟩ := encryptBlock_eq_ok_iff.mp h
  refine encryptBlock_eq_ok_iff.mpr ⟨(complement_length P).trans hP, (complement_length key).trans hkey, ?_⟩
  exact (congrArg (desBlock · (complement P)) (roundKeys_complement hkey)).trans (desBlock_complement _ hP)

end Sys2Proof.Machine
end

section
/-! SUPPORT. The block modes on messages of one and of two Blocks and on zero-filled ones (spec/45_block_modes.md R106,
R110). -/
namespace Sys2Proof.Machine

/-! ### Blocks of a message -/

/-- R33: a read within the message. -/
theorem memRead_eq_take_drop {msg : ByteSeq} {addr n : Nat} (h : addr + n ≤ msg.length) :
    memRead msg addr n = (msg.drop addr).take n := by
  refine bytes_ext (by simp; omega) fun a ha => ?_
  rw [memRead_length] at ha
  simp [memRead, ha, show addr + a < msg.length by omega]

/-- R33: the first Block of a message that begins with these eight bytes. -/
theorem messageBlock_append_one {M : ByteSeq} (h : M.length = 8) (rest : ByteSeq) :
    messageBlock (M ++ rest) 1 = bitsOfBytes M := by
  rw [messageBlock, memRead_eq_take_drop (by simp [h])]
  exact congrArg bitsOfBytes (List.take_left' h)

/-- R33: the second Block of two. -/
theorem messageBlock_append_two {M M' : ByteSeq} (h : M.length = 8) (h' : M'.length = 8) :
    messageBlock (M ++ M') 2 = bitsOfBytes M' := by
  rw [messageBlock, memRead_eq_take_drop (by simp [h, h']), List.drop_left' h, List.take_of_length_le h'.le]

theorem messageBlock_one {M : ByteSeq} (h : M.length = 8) : messageBlock M 1 = bitsOfBytes M := by
  simpa using messageBlock_append_one h []

/-- R24: the Block numbers of a message with one Block. -/
theorem blockNumbers_of_length_eight {M : ByteSeq} (h : M.length = 8) : blockNumbers M = [1] := by
  rw [blockNumbers, nblocks, h]
  rfl

/-- R24: the Block numbers of a message with two Blocks. -/
theorem blockNumbers_of_length_sixteen {M : ByteSeq} (h : M.length = 16) : blockNumbers M = [1, 2] := by
  rw [blockNumbers, nblocks, h]
  rfl

/-- R31: Blocks that give the same bytes. -/
theorem bytesOfBits_injective_of_length {S T : BitSeq} (hS : S.length = 64) (hT : T.length = 64)
    (h : bytesOfBits S = bytesOfBits T) : S = T := by
  rw [← bitsOfBytes_bytesOfBits S 8 hS, h, bitsOfBytes_bytesOfBits T 8 hT]

/-! ### CBC -/

/-- R109: what an answered ciphertext says of the operands. -/
theorem eq_cbcBytes_of_cbc_ok {msg out : ByteSeq} {key iv : BitSeq} (h : cbc msg key iv = .ok out) :
    iv.length = 64 ∧ out = cbcBytes msg key iv := by
  by_cases hm : msg.length < 8
  · exact absurd ((if_pos hm).symm.trans h) nofun
  by_cases hk : key.length = 64
  · by_cases hv : iv.length = 64
    · exact ⟨hv, (Except.ok.inj ((cbc_ok (Nat.not_lt.mp hm) hk hv).symm.trans h)).symm⟩
    · simp [cbc, hm, hk, hv] at h
  · simp [cbc, hm, hk] at h

/-- R109: the ciphertext of two Blocks is the chain's first two. -/
theorem cbcBytes_two {M M' : ByteSeq} (key iv : BitSeq) (h : M.length = 8) (h' : M'.length = 8) :
    cbcBytes (M ++ M') key iv =
      bytesOfBits (cbcChain (roundKeys key) (M ++ M') iv 1) ++
        bytesOfBits (cbcChain (roundKeys key) (M ++ M') iv 2) := by
  rw [cbcBytes, blockNumbers_of_length_sixteen (by simp [h, h'])]
  simp

/-- Settles O46: the two inputs of the cipher are the Block XORed with the IV and with `C1`, and neither the cipher nor
the XOR takes different inputs to one output. -/
theorem cbcDiffusionExactCondition : Obligations.CbcDiffusionExactCondition := by
  intro M key iv C1 C2 hM hC1 hC2 hcbc
  obtain ⟨hiv, hout⟩ := eq_cbcBytes_of_cbc_ok hcbc
  rw [cbcBytes_two key iv hM hM] at hout
  obtain ⟨hfst, hsnd⟩ := List.append_inj hout (by
    rw [bytesOfBits_length _ 8 hC1, bytesOfBits_length _ 8 (cbcChain_length _ _ hiv 1)])
  have hchain1 := bytesOfBits_injective_of_length hC1 (cbcChain_length _ _ hiv 1) hfst
  have hchain2 := bytesOfBits_injective_of_length hC2 (cbcChain_length _ _ hiv 2) hsnd
  have hblock : (bitsOfBytes M).length = 64 := by rw [bitsOfBytes_length, hM]
  have hfirst : C1 = desBlock (roundKeys key) (xorBits (bitsOfBytes M) iv) := by
    rw [hchain1, cbcChain, messageBlock_append_one hM, cbcChain]
  have hsecond : C2 = desBlock (roundKeys key) (xorBits (bitsOfBytes M) C1) := by
    rw [hchain2, cbcChain, messageBlock_append_two hM hM, hchain1]
  constructor
  · intro heq
    have hxor := desBlock_injective _ (by simp [hblock, hiv]) (by simp [hblock, hC1])
      (hfirst.symm.trans (heq.trans hsecond))
    exact xorBits_left_cancel (hiv.trans hblock.symm) (hC1.trans hblock.symm) hxor
  · rintro rfl
    exact hfirst.trans hsecond.symm

/-- Settles O47: the one Block of the XORed message is the input of the cipher under CBC. -/
theorem cbcOfOneBlockIsEcbOfXor : Obligations.CbcOfOneBlockIsEcbOfXor := by
  intro M key iv hM hk hv
  have hxor : (xorBits (bitsOfBytes M) iv).length = 8 * 8 := by simp [hM, hv]
  have hM' : (bytesOfBits (xorBits (bitsOfBytes M) iv)).length = 8 := bytesOfBits_length _ 8 hxor
  have hblock := (messageBlock_one hM').trans (bitsOfBytes_bytesOfBits _ 8 hxor)
  rw [cbc_ok hM.ge hk hv, cbcBytes, blockNumbers_of_length_eight hM, ← xorBits, ecb_ok hM'.ge hk, ecbBytes,
    blockNumbers_of_length_eight hM']
  simp [cbcChain, messageBlock_one hM, hblock]

/-! ### Zero fill -/

/-- R33: a read sees no zero bytes at the end of a message. -/
theorem memRead_append_zeros (msg : ByteSeq) (n addr len : Nat) :
    memRead (msg ++ List.replicate n 0) addr len = memRead msg addr len := by
  refine List.map_congr_left fun i _ => ?_
  by_cases h : addr + i < msg.length
  · rw [List.getD_append _ _ _ _ h]
  · have hout := Nat.not_lt.mp h
    rw [List.getD_append_right _ _ _ _ hout, List.getD_eq_getElem?_getD, List.getElem?_getD_replicate_default_eq,
      List.getD_eq_default _ _ hout]

/-- R105 to R109: the modes read a message by its Blocks. -/
theorem modes_congr {msg msg' : ByteSeq} (key iv : BitSeq) (hm : 8 ≤ msg.length) (hm' : 8 ≤ msg'.length)
    (hnumber : nblocks msg = nblocks msg') (hblocks : messageBlock msg = messageBlock msg') :
    ecb msg key = ecb msg' key ∧ cbc msg key iv = cbc msg' key iv := by
  simp only [ecb, cbc, hm.not_gt, hm'.not_gt, blockNumbers, hnumber, hblocks, and_self]

/-- Settles O48: the added zero bytes change neither the number of Blocks nor a Block. -/
theorem zeroFillIsInvisible : Obligations.ZeroFillIsInvisible := by
  intro msg n key iv hm hnumber
  refine modes_congr key iv (hm.trans (by simp)) hm (by simpa [nblocks, ceilDiv8] using hnumber) ?_
  exact funext fun i => congrArg bitsOfBytes (memRead_append_zeros msg n _ 8)

end Sys2Proof.Machine
end

section
/-! SUPPORT. The register numbers (spec/10_state.md R22). -/
namespace Sys2Proof.Machine

/-- R22: the numbers of the length registers and the stores end at 21. -/
theorem readRegister_of_ge (e : Engine) {n : Nat} (h : 22 ≤ n) :
    e.readRegister n = if 33 ≤ n ∧ n ≤ 48 then .bits (e.rkBits (n - 32)) else .word 0 := by
  unfold Engine.readRegister
  split
  case h_14 => rfl
  all_goals omega

/-- R22: the numbers that no register has. -/
theorem readRegister_reserved (e : Engine) {n : Nat} (h : n = 7 ∨ (8 ≤ n ∧ n ≤ 15) ∨ (22 ≤ n ∧ n ≤ 32) ∨ 49 ≤ n) :
    e.readRegister n = .word 0 := by
  by_cases hn : 22 ≤ n
  · rw [readRegister_of_ge e hn, if_neg (by omega)]
  · have h7 : 7 ≤ n := by omega
    have h15 : n ≤ 15 := by omega
    interval_cases n <;> rfl

/-- R20: the 48 bits of a round-key register, read back as its number. -/
theorem ofNat_val_rkBits (e : Engine) {r : Nat} (h1 : 1 ≤ r) (h16 : r ≤ 16) :
    some (BitVec.ofNat 48 (val (e.rkBits r))) = e.rk[r - 1]? := by
  have hr : r - 1 < 16 := by omega
  rw [Engine.rkBits, rkAt_of_get e h1 h16, bitsOfRoundKey, val_bitsN _ _ (e.rk[r - 1].isLt), BitVec.ofNat_toNat,
    BitVec.setWidth_eq, Vector.getElem?_eq_getElem hr]

/-- Settles O2: the listed numbers by the table, the round keys and the reserved numbers by the lemmas above. -/
theorem registerNumbersReadTheStores : Obligations.RegisterNumbersReadTheStores := by
  intro e
  have hlength (n : Nat) : ∃ w, RegValue.word (BitVec.ofNat 16 n) = .word w ∧ w.toNat = n % 65536 :=
    ⟨_, rfl, BitVec.toNat_ofNat _ _⟩
  refine ⟨rfl, hlength _, hlength _, hlength _, hlength _, hlength _, hlength _, rfl, rfl, rfl, rfl, rfl, rfl,
    fun r h1 h16 => ⟨e.rkBits r, ?_, bitsOfRoundKey_length _, ofNat_val_rkBits e h1 h16⟩,
    fun _ => readRegister_reserved e⟩
  rw [readRegister_of_ge e (by omega), if_pos (by omega), Nat.add_sub_cancel_left]

end Sys2Proof.Machine
end
